-- ==== Sys2Proof/Word.lean ====
section
/-! DEFINITION. Word.lean: the plain types of the core: bytes, 16-bit addresses and registers, 32-bit registers, and the
four bytes of an instruction (spec/00_scope.md R8, R10, R15; spec/30_encoding.md R76, R77). -/

namespace Sys2Proof

/-- One byte of memory or of the register arena. -/
abbrev Byte := BitVec 8

/-- A 16-bit value: an address, a two-byte register, the program counter (R8). Its arithmetic is mod 2^16, which is
`wrap16` of R10. -/
abbrev Half := BitVec 16

/-- A 32-bit value: a four-byte register, a legality word. -/
abbrev Word := BitVec 32

/-- An address: 0..65535 (spec/20_memory.md R45). -/
abbrev Addr := Half

/-- An instruction as memory holds it: "a fixed 4-byte record" (spec/30_encoding.md R76), in address order (R77). It is
also what a cycle latches at fetch (spec/10_state.md R38). -/
structure InstrBytes where
  op : Byte
  a1 : Byte
  a2 : Byte
  a3 : Byte
  deriving DecidableEq, Repr

/-- The four bytes in address order, the opcode at the lowest address (spec/20_memory.md R48). -/
def InstrBytes.toList (b : InstrBytes) : List Byte := [b.op, b.a1, b.a2, b.a3]

end Sys2Proof
end

