-- ==== Sys2Proof/Machine/Flags.lean ====
section
/-! DEFINITION. Machine/Flags.lean: the core has no status flags, condition codes or predicates, and no instruction
writes one (spec/10_state.md R27). What stands here is what other machines take from flags: the fixed carry-in of `adc`
and the register comparisons of the branches. -/

namespace Sys2Proof.Machine

/-- The carry-in of `adc`: "the constant 1, never a flag" (spec/43_alu.md R138). -/
def fixedCarryIn : Half := 1#16

/-- `beq` (spec/44_control.md R147). -/
def condEq (a b : Half) : Bool := a == b

/-- `bne` (R148). -/
def condNe (a b : Half) : Bool := a != b

/-- `blt`, "unsigned on the 16-bit values" (R146, R149). -/
def condLt (a b : Half) : Bool := decide (a.toNat < b.toNat)

/-- `bgt` (R150). -/
def condGt (a b : Half) : Bool := decide (a.toNat > b.toNat)

end Sys2Proof.Machine
end

