-- ==== Sys2Proof/Config.lean ====
section
/-! DEFINITION. Config.lean: the parameters the spec leaves OPEN and a model takes as arguments (spec/00_scope.md R9;
decisions D1 and D2). `regReset` and the image are arguments of the loading operation (Machine/State.lean), `fuel` is an
argument of the run (Machine/Run.lean). -/

namespace Sys2Proof

/-- The 23 mnemonics (spec/30_encoding.md R81): the 22 defined instructions and the sentinel `nop`. -/
inductive Mnemonic where
  | hlt | lim | l08 | l16 | l32 | s08 | s16 | s32 | jal | beq | bne | blt | bgt
  | and | eth | xor | nor | add | adc | shl | shr | int | nop
  deriving DecidableEq, Repr

/-- The mnemonics in the order of R81's table. -/
def Mnemonic.all : List Mnemonic :=
  [.hlt, .lim, .l08, .l16, .l32, .s08, .s16, .s32, .jal, .beq, .bne, .blt, .bgt,
   .and, .eth, .xor, .nor, .add, .adc, .shl, .shr, .int, .nop]

/-- The OPEN parameter `l32Order` (R9, R87, spec/42_load_store.md R124): which of a1 and a2 is the destination of
`l32`. -/
inductive L32Order where
  | destFirst
  | addrFirst
  deriving DecidableEq, Repr

/-- The parameters fixed for the life of an engine (spec/10_state.md R41). `opcodes` is `opcodeOf` written as a table:
its entry k is the mnemonic whose opcode is k + 1, k = 0..20. `hlt` = 0 and `nop` = 64 are fixed by the source (R82) and
stand in no table. -/
structure Config where
  opcodes  : Vector Mnemonic 21
  l32Order : L32Order
  deriving DecidableEq, Repr

/-- The table is a bijection from the 21 mnemonics other than `hlt` and `nop` onto the values 1..21, so that with
`hlt` = 0 `opcodeOf` is "a bijection from the 22 defined mnemonics onto 0..21" (R9, R82). -/
def Config.wf (c : Config) : Bool :=
  decide c.opcodes.toList.Nodup
    && Mnemonic.all.all fun m => c.opcodes.toList.contains m == (m != .hlt && m != .nop)

/-- The reference assignment of R83, the one of spec/opcode_table.json, with the source's general form of `l32`.
DESIGN CHOICE: the spec leaves both OPEN (notes/assumptions/1.md and 2.md). Unsafe where a claim rests on it; statements
hold for every `Config` instead. -/
def Config.reference : Config where
  opcodes := #v[.lim, .l08, .l16, .l32, .s08, .s16, .s32, .jal, .beq, .bne, .blt, .bgt,
    .and, .eth, .xor, .nor, .add, .adc, .shl, .shr, .int]
  l32Order := .destFirst

end Sys2Proof
end

