-- ==== Sys2Proof/Syntax.lean ====
section
/-! DEFINITION. Syntax.lean: the instructions, one constructor per row of spec/opcode_table.json (spec/30_encoding.md
R78, R81). A register field is the raw byte of the encoding (R80): whether it lies in its view is Machine/Operands.lean's
and WellFormed.lean's concern. An ignored field (R85) is no part of the syntax. -/

namespace Sys2Proof

/-- The instructions. Field names are those of spec/opcode_table.json. An `off` is a signed 8-bit byte offset, kept as
its byte (R79). -/
inductive Instr where
  /-- Halt (spec/40_cycle.md R115). -/
  | hlt
  /-- Load a 16-bit immediate (spec/41_immediate.md R119). -/
  | lim (reg : Byte) (imm : Half)
  /-- Load a byte (spec/42_load_store.md R122). -/
  | l08 (dest addrreg off : Byte)
  /-- Load a halfword (R123). -/
  | l16 (dest addrreg off : Byte)
  /-- Load a word (R124): which of `a1` and `a2` is the destination is the parameter `l32Order`. -/
  | l32 (a1 a2 off : Byte)
  /-- Store a byte (R126). -/
  | s08 (src addrreg off : Byte)
  /-- Store a halfword (R127). -/
  | s16 (src addrreg off : Byte)
  /-- Store a word (R128). -/
  | s32 (src addrreg off : Byte)
  /-- Jump and link (spec/44_control.md R143). -/
  | jal (dest addrreg off : Byte)
  /-- Branch if equal (R147). -/
  | beq (s1 s2 off : Byte)
  /-- Branch if not equal (R148). -/
  | bne (s1 s2 off : Byte)
  /-- Branch if lower, unsigned (R149). -/
  | blt (s1 s2 off : Byte)
  /-- Branch if higher, unsigned (R150). -/
  | bgt (s1 s2 off : Byte)
  /-- Bitwise and (spec/43_alu.md R133). -/
  | and (dest src1 src2 : Byte)
  /-- Bitwise or (R134). -/
  | eth (dest src1 src2 : Byte)
  /-- Bitwise exclusive or (R135). -/
  | xor (dest src1 src2 : Byte)
  /-- Bitwise not-or (R136). -/
  | nor (dest src1 src2 : Byte)
  /-- Add (R137). -/
  | add (dest src1 src2 : Byte)
  /-- Add plus one (R138). -/
  | adc (dest src1 src2 : Byte)
  /-- Logical shift left (R139). -/
  | shl (dest src1 src2 : Byte)
  /-- Logical shift right (R140). -/
  | shr (dest src1 src2 : Byte)
  /-- Software trap (spec/45_int.md R154): a raw code byte and a signed 8-bit offset. -/
  | int (code off : Byte)
  /-- The sentinel `nop` and every other undefined opcode 22..255 (spec/40_cycle.md R116). -/
  | nop
  deriving DecidableEq, Repr

/-- The row of the opcode table an instruction belongs to. -/
def Instr.mnemonic : Instr → Mnemonic
  | .hlt => .hlt
  | .lim _ _ => .lim
  | .l08 _ _ _ => .l08
  | .l16 _ _ _ => .l16
  | .l32 _ _ _ => .l32
  | .s08 _ _ _ => .s08
  | .s16 _ _ _ => .s16
  | .s32 _ _ _ => .s32
  | .jal _ _ _ => .jal
  | .beq _ _ _ => .beq
  | .bne _ _ _ => .bne
  | .blt _ _ _ => .blt
  | .bgt _ _ _ => .bgt
  | .and _ _ _ => .and
  | .eth _ _ _ => .eth
  | .xor _ _ _ => .xor
  | .nor _ _ _ => .nor
  | .add _ _ _ => .add
  | .adc _ _ _ => .adc
  | .shl _ _ _ => .shl
  | .shr _ _ _ => .shr
  | .int _ _ => .int
  | .nop => .nop

end Sys2Proof
end

