-- ==== Sys2Proof/WellFormed.lean ====
section
/-! DEFINITION. WellFormed.lean: which register fields lie inside the view their instruction uses them through
(spec/10_state.md R21, R23; spec/40_cycle.md R109). An instruction that is not well formed still decodes; executing it is
`undefined(register index)`. -/

namespace Sys2Proof

/-- "Index i is valid for the 8-bit view when i <= 31" (R21). -/
def validX8 (r : Byte) : Bool := decide (r.toNat ≤ 31)

/-- "for the 16-bit view when i <= 15" (R21). -/
def validX16 (r : Byte) : Bool := decide (r.toNat ≤ 15)

/-- "and for the 32-bit view when i <= 7" (R21). -/
def validX32 (r : Byte) : Bool := decide (r.toNat ≤ 7)

/-- Every register field of the instruction is inside the view that the operand table of R23 gives it. Ignored and
immediate fields are not tested (R109). -/
def Instr.wellFormed (c : Config) : Instr → Bool
  | .hlt => true
  | .lim r _ => validX16 r
  | .l08 d b _ => validX8 d && validX16 b
  | .l16 d b _ => validX16 d && validX16 b
  | .l32 a1 a2 _ =>
    match c.l32Order with
    | .destFirst => validX32 a1 && validX16 a2
    | .addrFirst => validX16 a1 && validX32 a2
  | .s08 r b _ => validX8 r && validX16 b
  | .s16 r b _ => validX16 r && validX16 b
  | .s32 r b _ => validX32 r && validX16 b
  | .jal d b _ => validX16 d && validX16 b
  | .beq r1 r2 _ => validX16 r1 && validX16 r2
  | .bne r1 r2 _ => validX16 r1 && validX16 r2
  | .blt r1 r2 _ => validX16 r1 && validX16 r2
  | .bgt r1 r2 _ => validX16 r1 && validX16 r2
  | .and d r1 r2 => validX16 d && validX16 r1 && validX16 r2
  | .eth d r1 r2 => validX16 d && validX16 r1 && validX16 r2
  | .xor d r1 r2 => validX16 d && validX16 r1 && validX16 r2
  | .nor d r1 r2 => validX16 d && validX16 r1 && validX16 r2
  | .add d r1 r2 => validX16 d && validX16 r1 && validX16 r2
  | .adc d r1 r2 => validX16 d && validX16 r1 && validX16 r2
  | .shl d r1 r2 => validX16 d && validX16 r1 && validX16 r2
  | .shr d r1 r2 => validX16 d && validX16 r1 && validX16 r2
  | .int _ _ => true
  | .nop => true

end Sys2Proof
end

