-- ==== Sys2Proof/Decode.lean ====
section
/-! DEFINITION. Decode.lean: the opcode map, the decoder and, after it, the encoder (spec/30_encoding.md R76 to R88).
Decoding is total over all bytes (R84); a byte list of fewer than four bytes is rejected by name. -/

namespace Sys2Proof

/-- Why a byte list is no instruction. No bit pattern is one of the reasons (R86). -/
inductive DecodeError where
  /-- Fewer than the four bytes of R76 are there. -/
  | truncated (got : Nat)
  deriving DecidableEq, Repr

/-- The mnemonic whose rule an opcode value selects (R84): 0 is `hlt`, 1..21 are the table's (parameter `opcodeOf`), every
other value has no defined case and is the no-op. -/
def mnemonicOf (c : Config) (op : Byte) : Mnemonic :=
  if op = 0#8 then .hlt else (c.opcodes[op.toNat - 1]?).getD .nop

/-- The parameter `opcodeOf` (R82), with the fixed values `hlt` = 0 and `nop` = 64. -/
def opcodeOf (c : Config) (m : Mnemonic) : Byte :=
  match m with
  | .hlt => 0#8
  | .nop => 64#8
  | m => BitVec.ofNat 8 (c.opcodes.toList.idxOf m + 1)

/-- `imm16 = a2 + 256*a3` (R79): the low byte in a2. -/
def imm16 (a2 a3 : Byte) : Half := a3 ++ a2

/-- The instruction four bytes are (R78, R84): the opcode alone selects the row, the row's shape reads the fields. -/
def decode (c : Config) (b : InstrBytes) : Instr :=
  match mnemonicOf c b.op with
  | .hlt => .hlt
  | .lim => .lim b.a1 (imm16 b.a2 b.a3)
  | .l08 => .l08 b.a1 b.a2 b.a3
  | .l16 => .l16 b.a1 b.a2 b.a3
  | .l32 => .l32 b.a1 b.a2 b.a3
  | .s08 => .s08 b.a1 b.a2 b.a3
  | .s16 => .s16 b.a1 b.a2 b.a3
  | .s32 => .s32 b.a1 b.a2 b.a3
  | .jal => .jal b.a1 b.a2 b.a3
  | .beq => .beq b.a1 b.a2 b.a3
  | .bne => .bne b.a1 b.a2 b.a3
  | .blt => .blt b.a1 b.a2 b.a3
  | .bgt => .bgt b.a1 b.a2 b.a3
  | .and => .and b.a1 b.a2 b.a3
  | .eth => .eth b.a1 b.a2 b.a3
  | .xor => .xor b.a1 b.a2 b.a3
  | .nor => .nor b.a1 b.a2 b.a3
  | .add => .add b.a1 b.a2 b.a3
  | .adc => .adc b.a1 b.a2 b.a3
  | .shl => .shl b.a1 b.a2 b.a3
  | .shr => .shr b.a1 b.a2 b.a3
  | .int => .int b.a1 b.a2
  | .nop => .nop

/-- The decoder on a byte list in address order: the instruction and the bytes after it, or the reason it is none. -/
def decodeBytes (c : Config) : List Byte → Except DecodeError (Instr × List Byte)
  | op :: a1 :: a2 :: a3 :: rest => .ok (decode c ⟨op, a1, a2, a3⟩, rest)
  | bs => .error (.truncated bs.length)

/-- The four bytes of the word `W = op + 2^8*a1 + 2^16*a2 + 2^24*a3` (R77), in address order. -/
def wordBytes (w : Nat) : List Byte :=
  [BitVec.ofNat 8 w, BitVec.ofNat 8 (w / 2 ^ 8), BitVec.ofNat 8 (w / 2 ^ 16), BitVec.ofNat 8 (w / 2 ^ 24)]

/-- The instruction the decoder reads from a word of spec/opcode_table.json, numbered as the table numbers its bits
(R77), under the table's own assignment of opcodes (R83); bits from `nbits` up are 0. -/
def decodeTableWord (nbits w : Nat) : Option Instr :=
  match decodeBytes Config.reference (wordBytes (w % 2 ^ nbits)) with
  | .ok (i, _) => some i
  | .error _ => none

/-- The bytes of an instruction (R78, R98): its opcode, its fields in the places its shape gives them, 0 in the fields
the shape ignores (R85). -/
def encode (c : Config) (i : Instr) : InstrBytes :=
  match i with
  | .hlt => ⟨opcodeOf c .hlt, 0#8, 0#8, 0#8⟩
  | .lim r v => ⟨opcodeOf c .lim, r, v.extractLsb' 0 8, v.extractLsb' 8 8⟩
  | .l08 d b k => ⟨opcodeOf c .l08, d, b, k⟩
  | .l16 d b k => ⟨opcodeOf c .l16, d, b, k⟩
  | .l32 d b k => ⟨opcodeOf c .l32, d, b, k⟩
  | .s08 r b k => ⟨opcodeOf c .s08, r, b, k⟩
  | .s16 r b k => ⟨opcodeOf c .s16, r, b, k⟩
  | .s32 r b k => ⟨opcodeOf c .s32, r, b, k⟩
  | .jal d b k => ⟨opcodeOf c .jal, d, b, k⟩
  | .beq r1 r2 k => ⟨opcodeOf c .beq, r1, r2, k⟩
  | .bne r1 r2 k => ⟨opcodeOf c .bne, r1, r2, k⟩
  | .blt r1 r2 k => ⟨opcodeOf c .blt, r1, r2, k⟩
  | .bgt r1 r2 k => ⟨opcodeOf c .bgt, r1, r2, k⟩
  | .and d r1 r2 => ⟨opcodeOf c .and, d, r1, r2⟩
  | .eth d r1 r2 => ⟨opcodeOf c .eth, d, r1, r2⟩
  | .xor d r1 r2 => ⟨opcodeOf c .xor, d, r1, r2⟩
  | .nor d r1 r2 => ⟨opcodeOf c .nor, d, r1, r2⟩
  | .add d r1 r2 => ⟨opcodeOf c .add, d, r1, r2⟩
  | .adc d r1 r2 => ⟨opcodeOf c .adc, d, r1, r2⟩
  | .shl d r1 r2 => ⟨opcodeOf c .shl, d, r1, r2⟩
  | .shr d r1 r2 => ⟨opcodeOf c .shr, d, r1, r2⟩
  | .int code f => ⟨opcodeOf c .int, code, f, 0#8⟩
  | .nop => ⟨opcodeOf c .nop, 0#8, 0#8, 0#8⟩

end Sys2Proof
end

