-- ==== Sys2Proof/Machine/Memory.lean ====
section
/-! DEFINITION. Machine/Memory.lean: the 65536 bytes of memory (spec/20_memory.md R44, R45) as a list of cells in one
canonical form, the primitives MemRead and MemWrite (spec/00_scope.md R12), and the memory at reset
(spec/70_reset_and_hazards.md R187). -/

namespace Sys2Proof.Machine

/-- Memory: the bytes that are not 0, with their addresses. An address that is not listed reads as 0, which is what the
spec gives every byte outside the image at reset (spec/10_state.md R42, decision D5; notes/assumptions/6.md). -/
structure Memory where
  cells : List Host.Cell
  deriving DecidableEq, Repr

/-- Every cell's address is at least `lo`, addresses rise strictly and stay below 65536, and no listed byte is the 0 that
an unlisted address reads as. -/
def cellsFrom : Nat → List Host.Cell → Bool
  | _, [] => true
  | lo, (k, b) :: rest => decide (lo ≤ k) && decide (k < 65536) && (b != 0#8) && cellsFrom (k + 1) rest

/-- The canonical form: equal memories are equal lists. -/
def Memory.wf (m : Memory) : Bool := cellsFrom 0 m.cells

/-- The byte listed for an address, 0 where none is. -/
def readCells : List Host.Cell → Nat → Byte
  | [], _ => 0#8
  | (k, b) :: rest, a => if k = a then b else readCells rest a

/-- A cell put in its place in a rising list. -/
def insertCell (a : Nat) (v : Byte) : List Host.Cell → List Host.Cell
  | [] => [(a, v)]
  | (k, b) :: rest => if a < k then (a, v) :: (k, b) :: rest else (k, b) :: insertCell a v rest

/-- The list with the byte at an address replaced; storing the 0 that an unlisted address reads as leaves no cell. -/
def writeCells (cs : List Host.Cell) (a : Nat) (v : Byte) : List Host.Cell :=
  let kept := cs.filter fun c => c.1 != a
  if v = 0#8 then kept else insertCell a v kept

/-- `mem[a]` (R12). -/
def Memory.read (m : Memory) (a : Addr) : Byte := readCells m.cells a.toNat

/-- `mem[a] <- v`. -/
def Memory.write (m : Memory) (a : Addr) (v : Byte) : Memory := ⟨writeCells m.cells a.toNat v⟩

/-- `MemRead(a, 2)` (R12): little-endian, the second address mod 2^16 (spec/20_memory.md R46, R49). -/
def Memory.read16 (m : Memory) (a : Addr) : Half := m.read (a + 1#16) ++ m.read a

/-- `MemRead(a, 4)` (R12). -/
def Memory.read32 (m : Memory) (a : Addr) : Word :=
  m.read (a + 3#16) ++ (m.read (a + 2#16) ++ (m.read (a + 1#16) ++ m.read a))

/-- `MemWrite(a, 2, v)` (R12): the byte at the lowest address is the least significant. -/
def Memory.write16 (m : Memory) (a : Addr) (v : Half) : Memory :=
  (m.write a (v.extractLsb' 0 8)).write (a + 1#16) (v.extractLsb' 8 8)

/-- `MemWrite(a, 4, v)` (R12). -/
def Memory.write32 (m : Memory) (a : Addr) (v : Word) : Memory :=
  (((m.write a (v.extractLsb' 0 8)).write (a + 1#16) (v.extractLsb' 8 8)).write (a + 2#16) (v.extractLsb' 16 8)).write
    (a + 3#16) (v.extractLsb' 24 8)

/-- The cells of a byte string that lies from address `k` upwards. -/
def imageCells : Nat → List Byte → List Host.Cell
  | _, [] => []
  | k, b :: bs => if b = 0#8 then imageCells (k + 1) bs else (k, b) :: imageCells (k + 1) bs

/-- Memory when the first cycle begins (spec/70_reset_and_hazards.md R187, R188): zeros, then the image from address 0,
then `mem[1120] <- 0` and bit 31 of PPT[0]'s legality set. -/
def resetMemory (image : List Byte) : Memory :=
  let m : Memory := ⟨imageCells 0 image⟩
  let m := m.write 1120#16 0#8
  m.write 1029#16 (m.read 1029#16 ||| 0x80#8)

end Sys2Proof.Machine
end

