-- ==== Sys2Proof/Machine/State.lean ====
section
/-! DEFINITION. Machine/State.lean: the architectural state (spec/10_state.md R18, R42), the reasons a step can stop, and
reset (spec/70_reset_and_hazards.md R187). -/

namespace Sys2Proof.Machine

/-- The register arena: 32 bytes that the three views share (spec/10_state.md R19). -/
abbrev Arena := Vector Byte 32

/-- The run status (spec/10_state.md R37). `halted` and `fetchFaulted` are final. -/
inductive RunStatus where
  | running
  | halted
  /-- A fetch fault at address `a` (spec/40_cycle.md R108). -/
  | fetchFaulted (a : Addr)
  deriving DecidableEq, Repr

/-- The state: the tuple (mem, A, pc, run, out) of R18, and the parameters of the engine. All control fields (process
table, current process, trap fields, console port) are bytes of `mem` (R29). -/
structure State where
  /-- The 65536 bytes of memory (R18, spec/20_memory.md R44). -/
  mem : Memory
  /-- `A`, the register arena (R18, R19). -/
  arena : Arena
  /-- The program counter (R24). -/
  pc : Addr
  /-- The run status (R37). -/
  run : RunStatus
  /-- The output stream, oldest byte first (R39). -/
  out : List Byte
  /-- MODEL: the parameters `opcodeOf` and `l32Order`, which no step changes (R41; notes/assumptions/4.md). -/
  cfg : Config
  deriving DecidableEq, Repr

/-- Why a step stops with a fault. -/
inductive Fault where
  /-- `undefined(register index)` (spec/10_state.md R21, spec/40_cycle.md R109): raised by every instruction with a
  register field outside its view, before any effect; it names the instruction. Safe: the spec gives the case no result
  (decision D17). -/
  | registerIndex (i : Instr)
  deriving DecidableEq, Repr

/-- Why something is refused. -/
inductive Refusal where
  /-- An instruction without a meaning, refused in exec's arm. No arm of this model raises it. Safe. -/
  | notModelled (mnemonic : String)
  /-- An image of more than 65536 bytes: no run starts (spec/70_reset_and_hazards.md R187, R190; decision D7). Raised by
  the loading operation alone, never by a step. Safe. -/
  | imageTooLong (length : Nat)
  deriving DecidableEq, Repr

/-- The state after the reset sequence of R187 (spec/10_state.md R42), for the parameters, the arena contents `regReset`
and an image. -/
def State.resetWith (c : Config) (regReset : Arena) (image : List Byte) : State where
  mem := resetMemory image
  arena := regReset
  pc := 0#16
  run := .running
  out := []
  cfg := c

/-- The machine right after reset with nothing placed: the empty image (R190). DESIGN CHOICE: the reference parameters
(notes/assumptions/1.md, 2.md) and 32 zero bytes for the OPEN `regReset` (notes/assumptions/3.md); unsafe where a claim
rests on them. -/
def State.reset : State := .resetWith .reference (Vector.replicate 32 0#8) []

end Sys2Proof.Machine
end

