-- ==== Sys2Proof/Machine/Ops.lean ====
section
/-! DEFINITION. Machine/Ops.lean: the named operations over registers, memory and the memory-mapped control fields, the
legality checks, the trap transfer, and the parts of the cycle around the execute phase. -/

namespace Sys2Proof.Machine

/-! ### Loading (spec/70_reset_and_hazards.md R187) -/

/-- The reset sequence with its refusal (spec/70_reset_and_hazards.md R187): a run starts only when the image fits. -/
def load (c : Config) (regReset : Arena) (image : List Byte) : Host.Outcome State Fault Refusal :=
  if image.length > 65536 then .refused (.imageTooLong image.length) else .next (.resetWith c regReset image)

/-! ### Updates of one field -/

def State.withMem (s : State) (m : Memory) : State := { s with mem := m }
def State.withArena (s : State) (A : Arena) : State := { s with arena := A }
def State.withPc (s : State) (a : Addr) : State := { s with pc := a }
def State.withRun (s : State) (r : RunStatus) : State := { s with run := r }

/-- `emit(b)`: append a byte to the output stream (spec/00_scope.md R14). -/
def State.emit (s : State) (b : Byte) : State := { s with out := s.out ++ [b] }

/-! ### The three views of the arena (spec/00_scope.md R11, spec/10_state.md R20) -/

/-- `x8[i] = A[i]`. -/
def readX8 (A : Arena) (i : Fin 32) : Byte := A[i.val]

/-- `x16[i] = A[2i] + 256*A[2i+1]`. -/
def readX16 (A : Arena) (i : Fin 16) : Half := A[2 * i.val + 1] ++ A[2 * i.val]

/-- `x32[i] = A[4i] + 2^8*A[4i+1] + 2^16*A[4i+2] + 2^24*A[4i+3]`. -/
def readX32 (A : Arena) (i : Fin 8) : Word :=
  A[4 * i.val + 3] ++ (A[4 * i.val + 2] ++ (A[4 * i.val + 1] ++ A[4 * i.val]))

/-- `x8[i] <- v`. -/
def writeX8 (A : Arena) (i : Fin 32) (v : Byte) : Arena := A.set i.val v

/-- `x16[i] <- v`. -/
def writeX16 (A : Arena) (i : Fin 16) (v : Half) : Arena :=
  (A.set (2 * i.val) (v.extractLsb' 0 8)).set (2 * i.val + 1) (v.extractLsb' 8 8)

/-- `x32[i] <- v`. -/
def writeX32 (A : Arena) (i : Fin 8) (v : Word) : Arena :=
  (((A.set (4 * i.val) (v.extractLsb' 0 8)).set (4 * i.val + 1) (v.extractLsb' 8 8)).set
    (4 * i.val + 2) (v.extractLsb' 16 8)).set (4 * i.val + 3) (v.extractLsb' 24 8)

def State.x8 (s : State) (i : Fin 32) : Byte := readX8 s.arena i
def State.x16 (s : State) (i : Fin 16) : Half := readX16 s.arena i
def State.x32 (s : State) (i : Fin 8) : Word := readX32 s.arena i
def State.setX8 (s : State) (i : Fin 32) (v : Byte) : State := s.withArena (writeX8 s.arena i v)
def State.setX16 (s : State) (i : Fin 16) (v : Half) : State := s.withArena (writeX16 s.arena i v)
def State.setX32 (s : State) (i : Fin 8) (v : Word) : State := s.withArena (writeX32 s.arena i v)

/-! ### The control fields (spec/10_state.md R29, R30, R32, R33, R34): views of bytes of memory -/

/-- The current process (R32). -/
def State.cur (s : State) : Byte := s.mem.read 1120#16

/-- The return process (R33). -/
def State.returnProcess (s : State) : Byte := s.mem.read 1121#16

/-- The return address (R33). -/
def State.returnAddress (s : State) : Addr := s.mem.read16 1122#16

/-- The requested code (R33). -/
def State.requestedCode (s : State) : Byte := s.mem.read 1124#16

/-- The handler pointer (R33). -/
def State.handlerPointer (s : State) : Addr := s.mem.read16 1125#16

/-- The console write-request flag (R34). -/
def State.consoleFlag (s : State) : Byte := s.mem.read 1022#16

/-- The console data byte (R34). -/
def State.consoleData (s : State) : Byte := s.mem.read 1023#16

/-- `E(p) = 1024 + 6p` (R30), for every byte p: a process index of 16 or more names the bytes past the table (R32). -/
def pptEntry (p : Byte) : Addr := 1024#16 + 6#16 * p.setWidth 16

/-- `Off(p)` (R30). -/
def State.offset (s : State) (p : Byte) : Half := s.mem.read16 (pptEntry p)

/-- `Leg(p)` (R30). -/
def State.legality (s : State) (p : Byte) : Word := s.mem.read32 (pptEntry p + 2#16)

/-- `Super(p) = Leg(p)[31]` (R30). -/
def State.superuser (s : State) (p : Byte) : Bool := (s.legality p).getLsbD 31

/-! ### Addresses and legality (spec/20_memory.md, sections 4 and 5) -/

/-- `wrap16(sext_8(v))` (spec/00_scope.md R10): what adding a signed 8-bit offset adds mod 2^16. -/
def sext8 (v : Byte) : Half := v.signExtend 16

/-- `Seg(a) = a div 2048` (R60). -/
def segmentOf (a : Addr) : Nat := a.toNat / 2048

/-- `SegOff(a) = a mod 2048` (R60). -/
def segmentOffset (a : Addr) : Nat := a.toNat % 2048

/-- `ReadLegal(a, p) = Super(p) or Leg(p)[Seg(a)]` (R63). -/
def State.readLegal (s : State) (a : Addr) (p : Byte) : Bool :=
  s.superuser p || (s.legality p).getLsbD (segmentOf a)

/-- `WriteLegal(ea, pa, p) = Super(p) or (Leg(p)[Seg(ea)] and SegOff(pa) < 2016)` (R64). -/
def State.writeLegal (s : State) (ea pa : Addr) (p : Byte) : Bool :=
  s.superuser p || ((s.legality p).getLsbD (segmentOf ea) && decide (segmentOffset pa < 2016))

/-- `PA = wrap16(x16[b] + sext_8(k))`, the pre-translation address (R58). -/
def State.preAddr (s : State) (b : Fin 16) (k : Byte) : Addr := s.x16 b + sext8 k

/-- `EA = wrap16(Off(cur) + PA)`, the effective address (R58). -/
def State.effAddr (s : State) (b : Fin 16) (k : Byte) : Addr := s.offset s.cur + s.preAddr b k

/-! ### Traps (spec/60_exceptions.md) -/

/-- `TrapTransfer(code, off)` (R160), in the order of its steps, with `off` already mod 2^16: the one operation that
takes a trap. Its accesses are unchecked and untranslated (R165). No register changes (R163). The cycle's increment lands
on the handler (R111). -/
def State.trapTransfer (s : State) (code : Byte) (off : Half) : State :=
  let m := s.mem.write 1121#16 s.cur
  let m := m.write16 1122#16 (s.pc + off)
  let m := m.write 1124#16 code
  let m := m.write 1120#16 0#8
  (s.withMem m).withPc (m.read16 1125#16 - 4#16)

/-- `SoftTrap(code, off)` (R161). -/
def State.softTrap (s : State) (code off : Byte) : State := s.trapTransfer code (sext8 off)

/-- `MemProtTrap = TrapTransfer(0, 4)` (R162). -/
def State.memProtTrap (s : State) : State := s.trapTransfer 0#8 4#16

/-! There is no return from a trap beside it: "The hardware restores nothing" (R167). Software returns by a store to
1120 and a `jal`, whose meanings are in Machine/LoadStore.lean and Machine/Control.lean. -/

/-! ### Control transfers and checked accesses -/

/-- A transfer to net target T assigns `pc <- wrap16(T - 4)` (spec/00_scope.md R13, spec/40_cycle.md R113). -/
def State.transferTo (s : State) (t : Addr) : State := s.withPc (t - 4#16)

/-- The checked transfer of `jal` and the taken branches (spec/20_memory.md R65): the target is absolute (R59), and an
illegal one traps with pc not moved (R67). -/
def State.checkedTransfer (s : State) (t : Addr) : State :=
  if s.readLegal t s.cur then s.transferTo t else s.memProtTrap

/-- A load's check (R65): the access happens when EA is readable, else the trap, with no register changed (R67). -/
def State.checkedLoad (s : State) (b : Fin 16) (k : Byte) (access : Addr → State) : State :=
  if s.readLegal (s.effAddr b k) s.cur then access (s.effAddr b k) else s.memProtTrap

/-- A store's check (R65): the memory becomes `access EA` when EA and PA are writable, else the trap, with no byte of the
access written (R67). -/
def State.checkedStore (s : State) (b : Fin 16) (k : Byte) (access : Addr → Memory) : State :=
  if s.writeLegal (s.effAddr b k) (s.preAddr b k) s.cur then s.withMem (access (s.effAddr b k)) else s.memProtTrap

/-! ### The cycle around the execute phase (spec/40_cycle.md) -/

/-- The four bytes at pc, each address mod 2^16, latched for the cycle (R107). -/
def State.fetch (s : State) : InstrBytes :=
  ⟨s.mem.read s.pc, s.mem.read (s.pc + 1#16), s.mem.read (s.pc + 2#16), s.mem.read (s.pc + 3#16)⟩

/-- The console poll (R112): a nonzero flag emits the data byte and is cleared. -/
def State.poll (s : State) : State :=
  if s.consoleFlag = 0#8 then s else (s.emit s.consoleData).withMem (s.mem.write 1022#16 0#8)

/-- The end of a cycle whose latched opcode is `op`: the poll, `pc <- wrap16(pc + 4)`, the halt test (R112 to R114). -/
def State.endCycle (s : State) (op : Byte) : State :=
  let s := s.poll
  let s := s.withPc (s.pc + 4#16)
  if op = 0#8 then s.withRun .halted else s

/-- A fetch fault (R108): the run ends, and nothing else changes. -/
def State.fetchFault (s : State) : State := s.withRun (.fetchFaulted s.pc)

/-- The bytes of an instruction word placed at pc (R77). -/
def State.placeWord (s : State) (b : InstrBytes) : State :=
  s.withMem ((((s.mem.write s.pc b.op).write (s.pc + 1#16) b.a1).write (s.pc + 2#16) b.a2).write (s.pc + 3#16) b.a3)

end Sys2Proof.Machine
end

