-- ==== Sys2Proof/Machine/Operands.lean ====
section
/-! DEFINITION. Machine/Operands.lean: register operands. Every register field an instruction uses is validated against
its view before any effect (spec/10_state.md R21, R23; spec/40_cycle.md R109); a field outside its view makes the cycle
`undefined(register index)`. -/

namespace Sys2Proof.Machine

/-- The outcome of an execute phase. -/
abbrev Result := Host.Outcome State Fault Refusal

/-- The byte register a field names, if it is inside the view (R21: i <= 31). -/
def view8 (r : Byte) : Option (Fin 32) := if h : r.toNat < 32 then some ⟨r.toNat, h⟩ else none

/-- The two-byte register a field names (R21: i <= 15). -/
def view16 (r : Byte) : Option (Fin 16) := if h : r.toNat < 16 then some ⟨r.toNat, h⟩ else none

/-- The four-byte register a field names (R21: i <= 7). -/
def view32 (r : Byte) : Option (Fin 8) := if h : r.toNat < 8 then some ⟨r.toNat, h⟩ else none

/-- Run `body` on the registers of one operand, or stop naming the instruction (R109). -/
def withReg {α : Type} (i : Instr) (r : Option α) (body : α → State) : Result :=
  match r with
  | some r => .next (body r)
  | none => .fault (.registerIndex i)

/-- Run `body` on the registers of two operands, or stop naming the instruction (R109). -/
def withRegs {α β : Type} (i : Instr) (r₁ : Option α) (r₂ : Option β) (body : α → β → State) : Result :=
  match r₁, r₂ with
  | some r₁, some r₂ => .next (body r₁ r₂)
  | _, _ => .fault (.registerIndex i)

/-- Run `body` on the registers of the three operands of the REG3 shape, or stop naming the instruction (R109). -/
def withRegs3 (i : Instr) (d r₁ r₂ : Option (Fin 16)) (body : Fin 16 → Fin 16 → Fin 16 → State) : Result :=
  match d, r₁, r₂ with
  | some d, some r₁, some r₂ => .next (body d r₁ r₂)
  | _, _, _ => .fault (.registerIndex i)

end Sys2Proof.Machine
end

