-- ==== Sys2Proof/Machine/Alu.lean ====
section
/-! DEFINITION. Machine/Alu.lean: register arithmetic and logic (spec/43_alu.md). -/

namespace Sys2Proof.Machine

/-- The common form (R132): both sources are read, then `x16[a1] <- f(a, b) mod 2^16`. -/
def alu (i : Instr) (d r₁ r₂ : Byte) (f : Half → Half → Half) (s : State) : Result :=
  withRegs3 i (view16 d) (view16 r₁) (view16 r₂) fun d r₁ r₂ => s.setX16 d (f (s.x16 r₁) (s.x16 r₂))

/-- `f(a, b) = (a * 2^b) mod 2^16` with b the whole 16-bit value, "not reduced mod 16 or mod 32" (R139; for amounts of 16
and more decision D18, notes/assumptions/13.md). -/
def shiftLeft (a b : Half) : Half := a <<< b.toNat

/-- `f(a, b) = a div 2^b`, zeros from the left (R140; D18). -/
def shiftRight (a b : Half) : Half := a >>> b.toNat

/-- `and` (R133). -/
def execAnd (d r₁ r₂ : Byte) (s : State) : Result := alu (.and d r₁ r₂) d r₁ r₂ (fun a b => a &&& b) s

/-- `eth`, which is OR (R134). -/
def execEth (d r₁ r₂ : Byte) (s : State) : Result := alu (.eth d r₁ r₂) d r₁ r₂ (fun a b => a ||| b) s

/-- `xor` (R135). -/
def execXor (d r₁ r₂ : Byte) (s : State) : Result := alu (.xor d r₁ r₂) d r₁ r₂ (fun a b => a ^^^ b) s

/-- `nor` (R136). -/
def execNor (d r₁ r₂ : Byte) (s : State) : Result := alu (.nor d r₁ r₂) d r₁ r₂ (fun a b => ~~~(a ||| b)) s

/-- `add` (R137). -/
def execAdd (d r₁ r₂ : Byte) (s : State) : Result := alu (.add d r₁ r₂) d r₁ r₂ (fun a b => a + b) s

/-- `adc` (R138): "a fixed-carry-in add, not a true carry-flag add". -/
def execAdc (d r₁ r₂ : Byte) (s : State) : Result := alu (.adc d r₁ r₂) d r₁ r₂ (fun a b => a + b + fixedCarryIn) s

/-- `shl` (R139). -/
def execShl (d r₁ r₂ : Byte) (s : State) : Result := alu (.shl d r₁ r₂) d r₁ r₂ shiftLeft s

/-- `shr` (R140). -/
def execShr (d r₁ r₂ : Byte) (s : State) : Result := alu (.shr d r₁ r₂) d r₁ r₂ shiftRight s

end Sys2Proof.Machine
end

