-- ==== Sys2Proof/Machine/Control.lean ====
section
/-! DEFINITION. Machine/Control.lean: `jal` and the branches (spec/44_control.md). -/

namespace Sys2Proof.Machine

/-- The link of a `jal`: `wrap16(pc + sext_8(a3) + 4)` (R143). -/
def State.link (s : State) (k : Byte) : Addr := s.pc + sext8 k + 4#16

/-- The target of a branch: `wrap16(pc + sext_8(a3))` (R146). -/
def State.branchTarget (s : State) (k : Byte) : Addr := s.pc + sext8 k

/-- `jal` (R143): the link is written first, the target is read after it, and the link stays when the jump traps
(R144). -/
def execJal (d b k : Byte) (s : State) : Result :=
  withRegs (.jal d b k) (view16 d) (view16 b) fun d b =>
    let s' := s.setX16 d (s.link k)
    s'.checkedTransfer (s'.x16 b)

/-- The common form of the branches (R146): not taken, nothing happens and no check is made. -/
def branch (i : Instr) (r₁ r₂ k : Byte) (cond : Half → Half → Bool) (s : State) : Result :=
  withRegs i (view16 r₁) (view16 r₂) fun r₁ r₂ =>
    if cond (s.x16 r₁) (s.x16 r₂) then s.checkedTransfer (s.branchTarget k) else s

/-- `beq` (R147). -/
def execBeq (r₁ r₂ k : Byte) (s : State) : Result := branch (.beq r₁ r₂ k) r₁ r₂ k condEq s

/-- `bne` (R148). -/
def execBne (r₁ r₂ k : Byte) (s : State) : Result := branch (.bne r₁ r₂ k) r₁ r₂ k condNe s

/-- `blt` (R149). -/
def execBlt (r₁ r₂ k : Byte) (s : State) : Result := branch (.blt r₁ r₂ k) r₁ r₂ k condLt s

/-- `bgt` (R150). -/
def execBgt (r₁ r₂ k : Byte) (s : State) : Result := branch (.bgt r₁ r₂ k) r₁ r₂ k condGt s

end Sys2Proof.Machine
end

