-- ==== Sys2Proof/Machine/Cycle.lean ====
section
/-! DEFINITION. Machine/Cycle.lean: the execute phases of `hlt` and of the no-op, the two instructions that the cycle
itself defines (spec/40_cycle.md R115, R116). -/

namespace Sys2Proof.Machine

/-- `hlt` (R115): "Pseudocode (execute phase): (nothing)". The cycle's end polls, advances pc and, the latched opcode
being 0, ends the run (`State.endCycle`, R114). -/
def execHlt (s : State) : Result := .next s

/-- `nop` and every undefined opcode (R116): "Pseudocode (execute phase): (nothing)". The cycle's end polls and advances
pc. -/
def execNop (s : State) : Result := .next s

end Sys2Proof.Machine
end

