-- ==== Sys2Proof/Machine/Immediate.lean ====
section
/-! DEFINITION. Machine/Immediate.lean: the immediate load (spec/41_immediate.md). -/

namespace Sys2Proof.Machine

/-- `lim` (R119): `x16[a1] <- a2 + 256*a3`. -/
def execLim (r : Byte) (imm : Half) (s : State) : Result :=
  withReg (.lim r imm) (view16 r) fun r => s.setX16 r imm

end Sys2Proof.Machine
end

