-- ==== Sys2Proof/Machine/LoadStore.lean ====
section
/-! DEFINITION. Machine/LoadStore.lean: loads and stores (spec/42_load_store.md). One addressing mode and one check,
`State.checkedLoad` and `State.checkedStore`; a load writes exactly its view's bytes (R121). -/

namespace Sys2Proof.Machine

/-- `l08` (R122): `x8[a1] <- mem[EA]`. -/
def execL08 (d b k : Byte) (s : State) : Result :=
  withRegs (.l08 d b k) (view8 d) (view16 b) fun d b =>
    s.checkedLoad b k fun ea => s.setX8 d (s.mem.read ea)

/-- `l16` (R123): `x16[a1] <- MemRead(EA, 2)`. -/
def execL16 (d b k : Byte) (s : State) : Result :=
  withRegs (.l16 d b k) (view16 d) (view16 b) fun d b =>
    s.checkedLoad b k fun ea => s.setX16 d (s.mem.read16 ea)

/-- `l32` (R124): `x32[d] <- MemRead(EA, 4)` with (d, b) = (a1, a2) under `destFirst` and (a2, a1) under `addrFirst`. -/
def execL32 (a1 a2 k : Byte) (s : State) : Result :=
  let (d, b) := match s.cfg.l32Order with
    | .destFirst => (a1, a2)
    | .addrFirst => (a2, a1)
  withRegs (.l32 a1 a2 k) (view32 d) (view16 b) fun d b =>
    s.checkedLoad b k fun ea => s.setX32 d (s.mem.read32 ea)

/-- `s08` (R126): `mem[EA] <- x8[a1]`. -/
def execS08 (r b k : Byte) (s : State) : Result :=
  withRegs (.s08 r b k) (view8 r) (view16 b) fun r b =>
    s.checkedStore b k fun ea => s.mem.write ea (s.x8 r)

/-- `s16` (R127): `MemWrite(EA, 2, x16[a1])`. -/
def execS16 (r b k : Byte) (s : State) : Result :=
  withRegs (.s16 r b k) (view16 r) (view16 b) fun r b =>
    s.checkedStore b k fun ea => s.mem.write16 ea (s.x16 r)

/-- `s32` (R128): `MemWrite(EA, 4, x32[a1])`; not affected by `l32Order`. -/
def execS32 (r b k : Byte) (s : State) : Result :=
  withRegs (.s32 r b k) (view32 r) (view16 b) fun r b =>
    s.checkedStore b k fun ea => s.mem.write32 ea (s.x32 r)

end Sys2Proof.Machine
end

