-- ==== Sys2Proof/Machine/SoftTrap.lean ====
section
/-! DEFINITION. Machine/SoftTrap.lean: the software trap `int` (spec/45_int.md). -/

namespace Sys2Proof.Machine

/-- `int` (R154): `raise SoftTrap(a1, sext_8(a2))`, unconditionally. -/
def execInt (code off : Byte) (s : State) : Result := .next (s.softTrap code off)

end Sys2Proof.Machine
end

