-- ==== Sys2Proof/Machine/Dispatch.lean ====
section
/-! DEFINITION. Machine/Dispatch.lean: the execute phase, "one 4-byte instruction, dispatched by opcode"
(spec/40_cycle.md R110). -/

namespace Sys2Proof.Machine

def exec (i : Instr) (s : State) : Host.Outcome State Fault Refusal :=
  match i with
  | .hlt => Sys2Proof.Machine.execHlt s
  | .lim r imm => Sys2Proof.Machine.execLim r imm s
  | .l08 d b k => Sys2Proof.Machine.execL08 d b k s
  | .l16 d b k => Sys2Proof.Machine.execL16 d b k s
  | .l32 d b k => Sys2Proof.Machine.execL32 d b k s
  | .s08 r b k => Sys2Proof.Machine.execS08 r b k s
  | .s16 r b k => Sys2Proof.Machine.execS16 r b k s
  | .s32 r b k => Sys2Proof.Machine.execS32 r b k s
  | .jal d b k => Sys2Proof.Machine.execJal d b k s
  | .beq r1 r2 k => Sys2Proof.Machine.execBeq r1 r2 k s
  | .bne r1 r2 k => Sys2Proof.Machine.execBne r1 r2 k s
  | .blt r1 r2 k => Sys2Proof.Machine.execBlt r1 r2 k s
  | .bgt r1 r2 k => Sys2Proof.Machine.execBgt r1 r2 k s
  | .and d r1 r2 => Sys2Proof.Machine.execAnd d r1 r2 s
  | .eth d r1 r2 => Sys2Proof.Machine.execEth d r1 r2 s
  | .xor d r1 r2 => Sys2Proof.Machine.execXor d r1 r2 s
  | .nor d r1 r2 => Sys2Proof.Machine.execNor d r1 r2 s
  | .add d r1 r2 => Sys2Proof.Machine.execAdd d r1 r2 s
  | .adc d r1 r2 => Sys2Proof.Machine.execAdc d r1 r2 s
  | .shl d r1 r2 => Sys2Proof.Machine.execShl d r1 r2 s
  | .shr d r1 r2 => Sys2Proof.Machine.execShr d r1 r2 s
  | .int code off => Sys2Proof.Machine.execInt code off s
  | .nop => Sys2Proof.Machine.execNop s

end Sys2Proof.Machine
end

