-- ==== Sys2Proof/Machine/Step.lean ====
section
/-! DEFINITION. Machine/Step.lean: one step is one cycle (spec/40_cycle.md R106). -/

namespace Sys2Proof.Machine

/-- The cycle of R106: the fetch check under the current process, the fetch, the execute phase of the decoded
instruction, the end of the cycle. A fetch fault is a state of the machine (R108), so it is a next state; from a final
state no cycle runs and the state stays as it is (R37, R106; notes/assumptions/9.md). -/
def step (s : State) : Host.Outcome State Fault Refusal :=
  match s.run with
  | .running =>
    if s.readLegal s.pc s.cur then
      match exec (decode s.cfg s.fetch) s with
      | .next t => .next (t.endCycle s.fetch.op)
      | .fault f => .fault f
      | .refused r => .refused r
    else .next s.fetchFault
  | .halted => .next s
  | .fetchFaulted _ => .next s

/-- The state with an instruction word of spec/opcode_table.json (bit 0 the least significant bit of the byte at pc, R77;
bits from `nbits` up are 0) stored at pc, where the next step fetches. It stands for an image that was loaded with this
word there (notes/assumptions/5.md). -/
def State.withFetchWord (s : State) (nbits w : Nat) : State :=
  match wordBytes (w % 2 ^ nbits) with
  | [op, a1, a2, a3] => s.placeWord ⟨op, a1, a2, a3⟩
  | _ => s

end Sys2Proof.Machine
end

