-- ==== Sys2Proof/Machine/Assembler.lean ====
section
/-! DEFINITION. Machine/Assembler.lean: the assembler, from text to the flat image (spec/30_encoding.md R88 to R103). It
is the toolchain's syntax, not hardware: "no engine rule depends on it" (spec/00_scope.md R6), and no other definition
file imports this one. Text is a list of bytes, a line ends at a newline byte (notes/assumptions/15.md). The
preprocessor's output is its input (R104); the preprocessor is out of scope (spec/00_scope.md R7). -/

namespace Sys2Proof.Machine

/-- Why an assembly pass is aborted (R101). The caller learns only that it failed. -/
inductive AsmError where
  | unknownMnemonic
  | badSpacing
  | badRegister
  | badImmediate
  | badOperand
  | operandCount
  | operandKind
  | unterminatedString
  | textAfterString
  deriving DecidableEq, Repr

/-- ASCII text as bytes. -/
def ascii (t : String) : List Byte := t.toList.map fun c => BitVec.ofNat 8 c.toNat

/-! ### Mnemonics and shapes -/

/-- The five operand shapes (R78). -/
inductive Shape where
  | unary
  | regImm16
  | reg2Imm8
  | reg3
  | imm8x2
  deriving DecidableEq, Repr

/-- The shape of a mnemonic (R81). -/
def mnemonicShape : Mnemonic → Shape
  | .hlt | .nop => .unary
  | .lim => .regImm16
  | .l08 | .l16 | .l32 | .s08 | .s16 | .s32 | .jal | .beq | .bne | .blt | .bgt => .reg2Imm8
  | .and | .eth | .xor | .nor | .add | .adc | .shl | .shr => .reg3
  | .int => .imm8x2

/-- The three characters of a mnemonic (R81). -/
def mnemonicText : Mnemonic → List Byte
  | .hlt => ascii "hlt"
  | .lim => ascii "lim"
  | .l08 => ascii "l08"
  | .l16 => ascii "l16"
  | .l32 => ascii "l32"
  | .s08 => ascii "s08"
  | .s16 => ascii "s16"
  | .s32 => ascii "s32"
  | .jal => ascii "jal"
  | .beq => ascii "beq"
  | .bne => ascii "bne"
  | .blt => ascii "blt"
  | .bgt => ascii "bgt"
  | .and => ascii "and"
  | .eth => ascii "eth"
  | .xor => ascii "xor"
  | .nor => ascii "nor"
  | .add => ascii "add"
  | .adc => ascii "adc"
  | .shl => ascii "shl"
  | .shr => ascii "shr"
  | .int => ascii "int"
  | .nop => ascii "nop"

/-- Mnemonic lookup: "linear scan over a static table" (R91), "exact 3-character match, case-sensitive" (R90). -/
def lookupMnemonic (t : List Byte) : Option Mnemonic := Mnemonic.all.find? fun m => mnemonicText m == t

/-! ### Operand tokens -/

/-- A parsed operand: a register index or an immediate's mathematical value. -/
inductive Operand where
  | reg (r : Nat)
  | imm (v : Int)
  deriving DecidableEq, Repr

/-- The value of a digit below `base`, if the byte is one. -/
def digitValue (base : Nat) (b : Byte) : Option Nat :=
  if 48 ≤ b.toNat ∧ b.toNat < 48 + base then some (b.toNat - 48) else none

/-- The number a digit string denotes, most significant digit first, continuing from `acc`. -/
def digitsFrom (base : Nat) : Nat → List Byte → Option Nat
  | acc, [] => some acc
  | acc, b :: bs =>
    match digitValue base b with
    | some d => digitsFrom base (acc * base + d) bs
    | none => none

/-- A nonempty digit string; leading zeros are allowed (R93, R94). -/
def digits (base : Nat) : List Byte → Option Nat
  | [] => none
  | bs => digitsFrom base 0 bs

/-- Signed decimal digits, "optional leading `-`" (R94). -/
def signedDigits : List Byte → Option Int
  | [] => none
  | b :: ds =>
    if b = 0x2d#8 then (digits 10 ds).map fun n => -(n : Int) else (digits 10 (b :: ds)).map fun n => (n : Int)

/-- "literal ASCII value of the following byte" (R94, R103). -/
def literalByte : List Byte → Option Int
  | [c] => some c.toNat
  | _ => none

/-- A register token's value "must resolve in 0..31 inclusive, else error" (R93). -/
def registerToken : Option Nat → Except AsmError Operand
  | some n => if n ≤ 31 then .ok (.reg n) else .error .badRegister
  | none => .error .badRegister

/-- An immediate token (R94). -/
def immediateToken : Option Int → Except AsmError Operand
  | some v => .ok (.imm v)
  | none => .error .badImmediate

/-- An operand token (R93, R94): `r<digits>`, `d<digits>` with an optional `-`, `'<char>`, `b<digits>` in binary;
"any other leading character is an error". -/
def parseOperand : List Byte → Except AsmError Operand
  | [] => .error .badOperand
  | lead :: t =>
    if lead = 0x72#8 then registerToken (digits 10 t)
    else if lead = 0x64#8 then immediateToken (signedDigits t)
    else if lead = 0x27#8 then immediateToken (literalByte t)
    else if lead = 0x62#8 then immediateToken ((digits 2 t).map fun n => (n : Int))
    else .error .badOperand

/-! ### Packing -/

/-- The low 8 bits of an immediate: "silently truncated to the low-order bits" (R95). -/
def pack8 (v : Int) : Byte := BitVec.ofInt 8 v

/-- The low 16 bits of an immediate (R95). -/
def pack16 (v : Int) : Half := BitVec.ofInt 16 v

/-- A register index as a field (R98). -/
def packReg (r : Nat) : Byte := BitVec.ofNat 8 r

/-- The fields a1, a2, a3 of a shape, from the operands in text order (R92, R98); a wrong count or kind is fatal. -/
def packOperands : Shape → List Operand → Except AsmError (Byte × Byte × Byte)
  | .unary, [] => .ok (0#8, 0#8, 0#8)
  | .regImm16, [.reg r, .imm v] => .ok (packReg r, (pack16 v).extractLsb' 0 8, (pack16 v).extractLsb' 8 8)
  | .reg2Imm8, [.reg r₁, .reg r₂, .imm v] => .ok (packReg r₁, packReg r₂, pack8 v)
  | .reg3, [.reg d, .reg r₁, .reg r₂] => .ok (packReg d, packReg r₁, packReg r₂)
  | .imm8x2, [.imm c, .imm f] => .ok (pack8 c, pack8 f, 0#8)
  | sh, ops =>
    let wanted := match sh with
      | .unary => 0
      | .regImm16 => 2
      | .reg2Imm8 => 3
      | .reg3 => 3
      | .imm8x2 => 2
    if ops.length = wanted then .error .operandKind else .error .operandCount

/-! ### Lines -/

/-- Split at every occurrence of a byte. -/
def splitBytes (sep : Byte) : List Byte → List (List Byte)
  | [] => [[]]
  | b :: bs =>
    if b = sep then [] :: splitBytes sep bs
    else
      match splitBytes sep bs with
      | [] => [[b]]
      | p :: ps => (b :: p) :: ps

/-- All operands of a list of tokens, or the first error. -/
def parseOperands : List (List Byte) → Except AsmError (List Operand)
  | [] => .ok []
  | t :: ts =>
    match parseOperand t with
    | .error e => .error e
    | .ok o =>
      match parseOperands ts with
      | .error e => .error e
      | .ok os => .ok (o :: os)

/-- The operand tokens after the mnemonic: none, or one space and tokens separated by single spaces (R90). -/
def operandTokens : List Byte → Except AsmError (List (List Byte))
  | [] => .ok []
  | 0x20#8 :: rest => .ok (splitBytes 0x20#8 rest)
  | _ => .error .badSpacing

/-- An instruction line (R90 to R98): its four bytes. -/
def assembleInstr (c : Config) (line : List Byte) : Except AsmError InstrBytes :=
  match lookupMnemonic (line.take 3) with
  | none => .error .unknownMnemonic
  | some m =>
    match operandTokens (line.drop 3) with
    | .error e => .error e
    | .ok ts =>
      match parseOperands ts with
      | .error e => .error e
      | .ok ops =>
        match packOperands (mnemonicShape m) ops with
        | .error e => .error e
        | .ok (a1, a2, a3) => .ok ⟨opcodeOf c m, a1, a2, a3⟩

/-- The byte a backslash escape stands for (R99): `\0` is 0, `\n` is newline, any other `\X` is X. -/
def escapeByte (x : Byte) : Byte := if x = 0x30#8 then 0#8 else if x = 0x6e#8 then 10#8 else x

/-- The bytes of a string literal after its opening quote (R99); the line ends at the closing quote. -/
def stringBody : List Byte → Except AsmError (List Byte)
  | [] => .error .unterminatedString
  | [b] => if b = 0x22#8 then .ok [] else .error .unterminatedString
  | b :: x :: rest =>
    if b = 0x22#8 then .error .textAfterString
    else if b = 0x5c#8 then
      match stringBody rest with
      | .ok t => .ok (escapeByte x :: t)
      | .error e => .error e
    else
      match stringBody (x :: rest) with
      | .ok t => .ok (b :: t)
      | .error e => .error e

/-- One logical line (R89): string data, nothing for a blank line, or an instruction. -/
def assembleLine (c : Config) (line : List Byte) : Except AsmError (List Byte) :=
  match line with
  | [] => .ok []
  | b :: rest =>
    if b = 0x22#8 then stringBody rest
    else
      match assembleInstr c line with
      | .ok i => .ok i.toList
      | .error e => .error e

/-- The lines' outputs "in input order, with no inter-line padding" (R89); any error aborts the whole pass (R101). -/
def assembleLines (c : Config) : List (List Byte) → Except AsmError (List Byte)
  | [] => .ok []
  | l :: ls =>
    match assembleLine c l with
    | .error e => .error e
    | .ok bs =>
      match assembleLines c ls with
      | .error e => .error e
      | .ok rest => .ok (bs ++ rest)

/-- The assembler: text to image (R89, spec/70_reset_and_hazards.md R190). -/
def assemble (c : Config) (text : List Byte) : Except AsmError (List Byte) := assembleLines c (splitBytes 10#8 text)

/-! ### Writing data and instructions as text -/

/-- A byte as it may stand in a string literal: the quote, the backslash, byte 0 and newline by their escapes (R99), any
other byte as itself. -/
def stringText : List Byte → List Byte
  | [] => []
  | b :: bs =>
    (if b = 0x22#8 ∨ b = 0x5c#8 then [0x5c#8, b]
      else if b = 0#8 then [0x5c#8, 0x30#8]
      else if b = 10#8 then [0x5c#8, 0x6e#8]
      else [b]) ++ stringText bs

/-- The decimal digits of a number put before `acc`, without leading zeros; the first argument bounds their count. -/
def decimalFrom : Nat → Nat → List Byte → List Byte
  | 0, _, acc => acc
  | fuel + 1, n, acc =>
    let acc := BitVec.ofNat 8 (48 + n % 10) :: acc
    if n / 10 = 0 then acc else decimalFrom fuel (n / 10) acc

/-- A number as decimal text. -/
def decimal (n : Nat) : List Byte := decimalFrom (n + 1) n []

/-- An operand as a token: `r<n>`, `d<n>` or `d-<n>` (R93, R94). -/
def operandText : Operand → List Byte
  | .reg r => 0x72#8 :: decimal r
  | .imm (.ofNat n) => 0x64#8 :: decimal n
  | .imm (.negSucc n) => 0x64#8 :: 0x2d#8 :: decimal (n + 1)

/-- Operands as text, one space before each (R90). -/
def operandsText : List Operand → List Byte
  | [] => []
  | o :: os => 0x20#8 :: operandText o ++ operandsText os

/-- An instruction line (R90). -/
def lineText (m : Mnemonic) (ops : List Operand) : List Byte := mnemonicText m ++ operandsText ops

/-- The operands of a decoded instruction in text order, immediate fields read unsigned: for `l32` a1 and then a2,
whatever `l32Order` (R98). -/
def instrOperands : Instr → List Operand
  | .hlt | .nop => []
  | .lim r v => [.reg r.toNat, .imm v.toNat]
  | .l08 a b k | .l16 a b k | .l32 a b k | .s08 a b k | .s16 a b k | .s32 a b k | .jal a b k
  | .beq a b k | .bne a b k | .blt a b k | .bgt a b k => [.reg a.toNat, .reg b.toNat, .imm k.toNat]
  | .and d a b | .eth d a b | .xor d a b | .nor d a b | .add d a b | .adc d a b | .shl d a b | .shr d a b =>
    [.reg d.toNat, .reg a.toNat, .reg b.toNat]
  | .int c f => [.imm c.toNat, .imm f.toNat]

/-- The width of a mnemonic's immediate fields: 16 bits for `lim`, 8 elsewhere (R95). -/
def immBits (m : Mnemonic) : Nat := if m = .lim then 16 else 8

/-- A written operand and the decoded one name the same value: the same register, or the same immediate "taken mod" its
field's width (R88). -/
def sameOperand (m : Mnemonic) : Operand → Operand → Prop
  | .reg r, .reg r' => r = r'
  | .imm v, .imm v' => v % 2 ^ immBits m = v'
  | _, _ => False

/-- The assembler's register range: "within field range means 0..31" (R88, R93). -/
def assemblerRange : Operand → Prop
  | .reg r => r ≤ 31
  | .imm _ => True

end Sys2Proof.Machine
end

