-- ==== Sys2Proof/Machine/Run.lean ====
section
/-! DEFINITION. Machine/Run.lean: runs, under a step budget or under none, and what the host gets at their end
(spec/00_scope.md R9, spec/70_reset_and_hazards.md R202, R203, R204). -/

namespace Sys2Proof.Machine

/-- How a run ended. -/
inductive EndStatus where
  /-- After a cycle whose latched opcode was 0 (R203). -/
  | halted
  /-- A fetch check failed at `a` (R203). -/
  | fetchFaulted (a : Addr)
  /-- The fuel ran out with `run = Running`: "a host-side outcome that is not a state of the core" (R204). -/
  | outOfFuel
  /-- The model stopped: the program has no meaning from here on (spec/40_cycle.md R109). -/
  | undefined (f : Fault)
  /-- The model refused. No step of this model does. -/
  | refused (r : Refusal)
  deriving DecidableEq, Repr

/-- What the host gets: the end status and the final state, its output stream among it (R202). -/
structure RunResult where
  status : EndStatus
  final  : State
  deriving DecidableEq, Repr

/-- Run at most `fuel` cycles (R204). -/
def runFuel (fuel : Nat) (s : State) : RunResult :=
  match s.run with
  | .halted => ⟨.halted, s⟩
  | .fetchFaulted a => ⟨.fetchFaulted a, s⟩
  | .running =>
    match fuel with
    | 0 => ⟨.outOfFuel, s⟩
    | n + 1 =>
      match step s with
      | .next t => runFuel n t
      | .fault f => ⟨.undefined f, s⟩
      | .refused r => ⟨.refused r, s⟩

/-- The whole run of an image under a step budget (R187, R202): load, then run; `none` is the load's refusal. -/
def runImage (c : Config) (regReset : Arena) (image : List Byte) (fuel : Nat) : Option RunResult :=
  match load c regReset image with
  | .next s => some (runFuel fuel s)
  | _ => none

/-- A run under no step budget, from `s` to its end (R203): cycle after cycle until the run status is final or the model
stops. "Nothing in the core bounds the number of cycles" (R204), so a state may have no end. -/
inductive EndsWith : State → RunResult → Prop where
  | halted {s : State} (h : s.run = .halted) : EndsWith s ⟨.halted, s⟩
  | fetchFaulted {s : State} {a : Addr} (h : s.run = .fetchFaulted a) : EndsWith s ⟨.fetchFaulted a, s⟩
  | undefined {s : State} {f : Fault} (h : s.run = .running) (hs : step s = .fault f) : EndsWith s ⟨.undefined f, s⟩
  | refused {s : State} {r : Refusal} (h : s.run = .running) (hs : step s = .refused r) : EndsWith s ⟨.refused r, s⟩
  | cycle {s t : State} {r : RunResult} (h : s.run = .running) (hs : step s = .next t) (ht : EndsWith t r) : EndsWith s r

/-- The parameter `fuel`, "natural number, or none" (spec/00_scope.md R9, decision D27), and the result a run has under
it: the budgeted run's, or without a budget the end the run reaches, if it reaches one (notes/assumptions/14.md). -/
def runsTo (fuel : Option Nat) (s : State) (r : RunResult) : Prop :=
  match fuel with
  | some n => runFuel n s = r
  | none => EndsWith s r

/-- The result of the whole run of an image under a `fuel` (R187, R202); no run starts when the load refuses. -/
def imageRunsTo (c : Config) (regReset : Arena) (image : List Byte) (fuel : Option Nat) (r : RunResult) : Prop :=
  ∃ s, load c regReset image = .next s ∧ runsTo fuel s r

/-- "A program may run forever" (R204): no budget is enough. -/
def State.runsForever (s : State) : Prop := ∀ n, (runFuel n s).status = .outOfFuel

end Sys2Proof.Machine
end

