-- ==== Sys2Proof/Safety.lean ====
section
/-! DEFINITION. Safety.lean: what counts as a safe run, in the terms claims use. -/

namespace Sys2Proof.Machine

/-- The cycle runs from this state: the run status is `Running` and the fetch at pc is legal for the current process
(spec/40_cycle.md R106, R107). -/
def State.fetches (s : State) : Prop := s.run = .running ∧ s.readLegal s.pc s.cur = true

/-- Every byte of memory reads as before. -/
def State.sameMemory (s t : State) : Prop := ∀ a, t.mem.read a = s.mem.read a

/-- The run status, the output stream and the parameters are as before. -/
def State.sameRest (s t : State) : Prop := t.run = s.run ∧ t.out = s.out ∧ t.cfg = s.cfg

/-- The fields an execute phase that neither transfers control nor traps leaves alone: pc and the rest. -/
def State.sameControl (s t : State) : Prop := t.pc = s.pc ∧ s.sameRest t

/-- What every reachable state satisfies: memory is in its canonical form, and a fetch-faulted engine kept the faulting
address in pc and still may not fetch there (spec/40_cycle.md R108, spec/70_reset_and_hazards.md R202). -/
def State.Inv (s : State) : Prop :=
  s.mem.wf = true ∧ ∀ a, s.run = .fetchFaulted a → a = s.pc ∧ s.readLegal s.pc s.cur = false

/-- A process that is no superuser and has no segment 0: it reaches no control field by a store of its own
(spec/10_state.md R35, spec/60_exceptions.md R174). -/
def State.confined (s : State) : Prop :=
  s.superuser s.cur = false ∧ (s.legality s.cur).getLsbD 0 = false

/-- A program has a meaning for `k` steps: no step of them stops with a fault or a refusal (R109). -/
def State.definedFor (s : State) (k : Nat) : Prop := ∃ t, Host.Core.run Sys2Proof.core k s = .next t

end Sys2Proof.Machine
end

