-- ==== Sys2Proof/Certificates/Slice0/Obligations.lean ====
section
/-! DEFINITION. Certificates/Slice0/Obligations.lean: the statements for the provers. Each docstring names the rule it
formalises. "Register in view" is a raw field byte with its bound, so that the forms outside the view are stated too. -/

open Sys2Proof Sys2Proof.Machine

/-! ### Encoding -/

/-- Decode and encode agree for every instruction, every value of every operand, under every admissible assignment of
opcodes (spec/30_encoding.md R78, R82, R84, R98). -/
def Obligations.DecodeEncodeAgree : Prop := ∀ c : Config, c.wf = true → ∀ i : Instr, decode c (encode c i) = i

/-- Words of spec/95_test_vectors.md (S1, V33, V72) under the reference assignment (R83), which is the
model's choice for `decodeTableWord` (notes/assumptions/1.md). -/
def Obligations.ReferenceWordsDecode : Prop :=
  decodeTableWord 32 0x01000211 = some (.add 2 0 1) ∧ decodeTableWord 32 0x03FE0001 = some (.lim 0 1022) ∧
  decodeTableWord 32 0xF801000A = some (.bne 0 1 0xF8) ∧ decodeTableWord 32 0x00080515 = some (.int 5 8) ∧
  decodeTableWord 32 0x00000106 = some (.s16 1 0 0) ∧ decodeTableWord 32 0 = some .hlt ∧
  decodeTableWord 32 0x40 = some .nop

/-- R82: `hlt` is 0, `nop` is 64, and each of the values 0..21 is the opcode of exactly one defined mnemonic. -/
def Obligations.OpcodesOccupyZeroToTwentyOne : Prop :=
  ∀ c : Config, c.wf = true →
    opcodeOf c .hlt = 0#8 ∧ opcodeOf c .nop = 64#8 ∧
    (∀ m, m ≠ .nop → (opcodeOf c m).toNat ≤ 21) ∧
    (∀ v : Byte, v.toNat ≤ 21 → ∃ m, m ≠ .nop ∧ opcodeOf c m = v ∧ ∀ m', m' ≠ .nop → opcodeOf c m' = v → m' = m)

/-- R84: the opcode alone selects the row, every value 22..255 is the no-op, whatever a1, a2 and a3 are. -/
def Obligations.OpcodeSelectsTheRule : Prop :=
  ∀ c : Config, c.wf = true → ∀ b : InstrBytes,
    (∀ m, m ≠ .nop → (b.op = opcodeOf c m ↔ (decode c b).mnemonic = m)) ∧
    (22 ≤ b.op.toNat ↔ decode c b = .nop)

/-- R85, R98: encoding a decoded instruction gives its bytes back, with 0 in the fields its row ignores and 64 for an
undefined opcode: no used field is lost. -/
def Obligations.EncodeDecodeKeepsUsedFields : Prop :=
  ∀ c : Config, c.wf = true → ∀ b : InstrBytes,
    let e := encode c (decode c b)
    if 22 ≤ b.op.toNat then e = ⟨64#8, 0#8, 0#8, 0#8⟩
    else if b.op = 0#8 then e = ⟨0#8, 0#8, 0#8, 0#8⟩
    else if b.op = opcodeOf c .int then e = ⟨b.op, b.a1, b.a2, 0#8⟩
    else e = b

/-! ### Reset -/

/-- R187: the reset sequence, for every image, every `regReset` and all parameters; an image of more than 65536 bytes is
refused. -/
def Obligations.ResetSequence : Prop :=
  ∀ (c : Config) (A : Arena) (img : List Byte),
    (img.length ≤ 65536 → ∃ s, load c A img = .next s ∧
      (∀ a : Addr, s.mem.read a = if a.toNat = 1120 then 0#8 else if a.toNat = 1029 then img.getD 1029 0#8 ||| 0x80#8
        else img.getD a.toNat 0#8) ∧
      s.arena = A ∧ s.pc = 0#16 ∧ s.run = .running ∧ s.out = [] ∧ s.cfg = c) ∧
    (65536 < img.length → load c A img = .refused (.imageTooLong img.length))

/-- R189: the first fetch is at address 0 under process 0, a superuser, so it never faults, and process 0's offset is what
the image placed at 1024..1025, in force from the first cycle. -/
def Obligations.FirstFetchNeverFaults : Prop :=
  ∀ (c : Config) (A : Arena) (img : List Byte) (s : State), load c A img = .next s →
    s.pc = 0#16 ∧ s.fetch.op = img.getD 0 0#8 ∧ s.cur = 0#8 ∧ s.superuser 0#8 = true ∧ s.readLegal s.pc s.cur = true ∧
    (s.offset 0#8).toNat = (img.getD 1024 0#8).toNat + 256 * (img.getD 1025 0#8).toNat ∧
    (∀ b k, s.effAddr b k = s.offset 0#8 + s.preAddr b k) ∧
    (∀ t a, step s = .next t → t.run ≠ .fetchFaulted a)

/-- The invariant holds at `State.reset` (with the model's choices of notes/assumptions/1.md, 2.md, 3.md and 5.md) and
after every load. -/
def Obligations.ResetSatisfiesInvariant : Prop :=
  State.reset.Inv ∧ ∀ (c : Config) (A : Arena) (img : List Byte) (s : State), load c A img = .next s → s.Inv

/-! ### The cycle -/

/-- A step runs the decoded instruction (R106): the bytes are those at pc, pc+1, pc+2, pc+3, the execute phase is
`exec` of the instruction they decode to, and the end of the cycle follows. That `exec` is the execute phase alone is the
model's form (notes/assumptions/10.md). -/
def Obligations.StepRunsDecodedInstruction : Prop :=
  ∀ s : State, s.fetches →
    s.fetch = ⟨s.mem.read s.pc, s.mem.read (s.pc + 1#16), s.mem.read (s.pc + 2#16), s.mem.read (s.pc + 3#16)⟩ ∧
    (∀ t, exec (decode s.cfg s.fetch) s = .next t → step s = .next (t.endCycle s.fetch.op)) ∧
    (∀ f, exec (decode s.cfg s.fetch) s = .fault f → step s = .fault f)

/-- R112, R113, R114: what the end of a cycle does to the state u that the execute phase left. -/
def Obligations.CycleEnd : Prop :=
  ∀ s u : State, s.fetches → exec (decode s.cfg s.fetch) s = .next u →
    ∃ t, step s = .next t ∧
      (u.mem.read 1022#16 ≠ 0#8 → t.out = u.out ++ [u.mem.read 1023#16] ∧ t.mem.read 1022#16 = 0#8) ∧
      (u.mem.read 1022#16 = 0#8 → t.out = u.out ∧ t.mem.read 1022#16 = 0#8) ∧
      (∀ a, a ≠ 1022#16 → t.mem.read a = u.mem.read a) ∧
      t.pc = u.pc + 4#16 ∧ t.arena = u.arena ∧ t.cfg = u.cfg ∧
      (s.fetch.op = 0#8 → t.run = .halted) ∧ (s.fetch.op ≠ 0#8 → t.run = .running)

/-- R108: a fetch fault. That the step answers it as a next state with run status `FetchFaulted` is the model's choice
(notes/assumptions/9.md). -/
def Obligations.FetchFaultChangesNothingElse : Prop :=
  ∀ s : State, s.run = .running → s.readLegal s.pc s.cur = false →
    ∃ t, step s = .next t ∧ t.run = .fetchFaulted s.pc ∧ t.pc = s.pc ∧ t.mem = s.mem ∧ t.arena = s.arena ∧
      t.out = s.out ∧ t.cfg = s.cfg

/-- R37, R106: no cycle runs from a final state. That `step` then answers the same state is the model's choice
(notes/assumptions/9.md). -/
def Obligations.FinalStatesStay : Prop := ∀ s : State, s.run ≠ .running → step s = .next s

/-- R115: the execute phase of `hlt` does nothing; its cycle, whatever its ignored fields hold and whatever the process,
ends the run. -/
def Obligations.HltHaltsTheEngine : Prop :=
  ∀ s : State, exec .hlt s = .next s ∧ (s.fetches → s.fetch.op = 0#8 →
    ∃ t, step s = .next t ∧ t.run = .halted ∧ t.pc = s.pc + 4#16 ∧ t.arena = s.arena ∧ t.cfg = s.cfg ∧
      (∀ a, a ≠ 1022#16 → t.mem.read a = s.mem.read a) ∧ t.mem.read 1022#16 = 0#8 ∧
      t.out = if s.mem.read 1022#16 = 0#8 then s.out else s.out ++ [s.mem.read 1023#16])

/-- R116: the execute phase of `nop` does nothing; its cycle and that of every other undefined opcode. -/
def Obligations.UndefinedOpcodesAreNoOps : Prop :=
  ∀ s : State, exec .nop s = .next s ∧ (s.fetches → 22 ≤ s.fetch.op.toNat →
    ∃ t, step s = .next t ∧ t.run = .running ∧ t.pc = s.pc + 4#16 ∧ t.arena = s.arena ∧ t.cfg = s.cfg ∧
      (∀ a, a ≠ 1022#16 → t.mem.read a = s.mem.read a) ∧ t.mem.read 1022#16 = 0#8 ∧
      t.out = if s.mem.read 1022#16 = 0#8 then s.out else s.out ++ [s.mem.read 1023#16])

/-- The next instruction never sees the console flag set (R181). -/
def Obligations.ConsoleFlagClearAfterEveryCycle : Prop :=
  ∀ s t : State, s.fetches → step s = .next t → t.mem.read 1022#16 = 0#8

/-- At most one byte is emitted per cycle, and nothing emitted is taken back (R39, R180). -/
def Obligations.AtMostOneByteEmitted : Prop :=
  ∀ s t : State, step s = .next t → t.out = s.out ∨ ∃ b, t.out = s.out ++ [b]

/-- R109, on the execute phase: it stops exactly when a register field is outside its view, naming the instruction, and
otherwise completes (notes/assumptions/8.md). -/
def Obligations.ExecStopsExactlyOutOfView : Prop :=
  ∀ (i : Instr) (s : State),
    (i.wellFormed s.cfg = true → ∃ t, exec i s = .next t) ∧
    (i.wellFormed s.cfg = false → exec i s = .fault (.registerIndex i))

/-- R118, R171: one cycle has exactly one of the three outcomes; no step is refused. -/
def Obligations.StepOutcomes : Prop :=
  ∀ s : State,
    (∀ r, step s ≠ .refused r) ∧
    (∀ f, step s = .fault f ↔
      s.fetches ∧ (decode s.cfg s.fetch).wellFormed s.cfg = false ∧ f = .registerIndex (decode s.cfg s.fetch))

/-! ### Invariants and whole-machine rules -/

/-- Every step keeps the invariant: canonical memory, and a fetch-faulted engine keeps the faulting address in pc
(R108, R202). -/
def Obligations.StepKeepsInvariant : Prop := ∀ s t : State, s.Inv → step s = .next t → t.Inv

/-- R41: `opcodeOf` and `l32Order` are fixed for the life of an engine. That they stand in the state is
the model's choice (notes/assumptions/4.md). -/
def Obligations.StepKeepsParameters : Prop := ∀ s t : State, step s = .next t → t.cfg = s.cfg

/-- R35, R174: a step of a process that is no superuser and has no segment 0 changes no byte of segment 0 but the
console flag (the poll) and the trap's own fields, and those only by a trap, which makes process 0 current. -/
def Obligations.ConfinedProcessCannotChangeSegmentZero : Prop :=
  ∀ s t : State, s.confined → step s = .next t →
    (∀ a : Addr, a.toNat < 2048 → a ≠ 1022#16 → ¬(1120 ≤ a.toNat ∧ a.toNat ≤ 1124) → t.mem.read a = s.mem.read a) ∧
    ((∀ a : Addr, 1120 ≤ a.toNat → a.toNat ≤ 1124 → t.mem.read a = s.mem.read a) ∨
      (t.cur = 0#8 ∧ t.returnProcess = s.cur ∧ t.pc = s.handlerPointer))

/-- R66, R174: a byte that a step under a confined process changes is a byte of the trap's fields, the console flag, or
one of four bytes from an address whose segment the process may use. -/
def Obligations.ConfinedWritesStartInAllowedSegments : Prop :=
  ∀ (s t : State) (a : Addr), s.superuser s.cur = false → step s = .next t → t.mem.read a ≠ s.mem.read a →
    a = 1022#16 ∨ (1120 ≤ a.toNat ∧ a.toNat ≤ 1124) ∨
    ∃ ea : Addr, (s.legality s.cur).getLsbD (ea.toNat / 2048) = true ∧ (a - ea).toNat < 4

/-- R176: a step changes the current process only by a trap, to process 0, or by a legal store that covers byte 1120. -/
def Obligations.CurrentProcessChangesOnlyByTrapOrStore : Prop :=
  ∀ s t : State, step s = .next t → t.cur ≠ s.cur →
    (t.cur = 0#8 ∧ t.returnProcess = s.cur ∧ t.pc = s.handlerPointer) ∨
    ∃ (r b k : Byte) (hb : b.toNat < 16) (width : Nat),
      ((decode s.cfg s.fetch = .s08 r b k ∧ width = 1) ∨ (decode s.cfg s.fetch = .s16 r b k ∧ width = 2) ∨
        (decode s.cfg s.fetch = .s32 r b k ∧ width = 4)) ∧
      s.writeLegal (s.effAddr ⟨b.toNat, hb⟩ k) (s.preAddr ⟨b.toNat, hb⟩ k) s.cur = true ∧
      (1120#16 - s.effAddr ⟨b.toNat, hb⟩ k).toNat < width

/-- R62, R176, R195: a legal store of any width that covers byte 1120 makes the byte it stores there the current process.
The next instruction is fetched, checked and translated as that process: where the process may not read it, the next cycle
is a fetch fault (as a next state: notes/assumptions/9.md). The byte is byte `1120 - EA` of the source register, whose
first byte in the arena is `width * r`. -/
def Obligations.StoreToCurActsAtNextFetch : Prop :=
  ∀ (s : State) (r b k : Byte) (width : Nat) (hb : b.toNat < 16), s.fetches →
    ((decode s.cfg s.fetch = .s08 r b k ∧ width = 1) ∨ (decode s.cfg s.fetch = .s16 r b k ∧ width = 2) ∨
      (decode s.cfg s.fetch = .s32 r b k ∧ width = 4)) →
    width * r.toNat + width ≤ 32 →
    s.writeLegal (s.effAddr ⟨b.toNat, hb⟩ k) (s.preAddr ⟨b.toNat, hb⟩ k) s.cur = true →
    (1120#16 - s.effAddr ⟨b.toNat, hb⟩ k).toNat < width →
    ∃ (t : State) (j : Fin 32), step s = .next t ∧ t.run = .running ∧ t.pc = s.pc + 4#16 ∧
      j.val = width * r.toNat + (1120#16 - s.effAddr ⟨b.toNat, hb⟩ k).toNat ∧ t.cur = s.x8 j ∧
      (∀ b' k', t.effAddr b' k' = t.offset (s.x8 j) + t.preAddr b' k') ∧
      (t.readLegal t.pc (s.x8 j) = true → t.fetches) ∧
      (t.readLegal t.pc (s.x8 j) = false → ∃ u, step t = .next u ∧ u.run = .fetchFaulted (s.pc + 4#16) ∧ u.mem = t.mem)

/-! ### Registers and memory -/

/-- R20: byte placement. -/
def Obligations.ViewsShareTheArena : Prop :=
  ∀ s : State,
    (∀ i : Fin 32, s.x8 i = s.arena[i.val]) ∧
    (∀ i : Fin 16, (s.x16 i).toNat = (s.x8 ⟨2 * i.val, by omega⟩).toNat + 256 * (s.x8 ⟨2 * i.val + 1, by omega⟩).toNat) ∧
    (∀ i : Fin 8, (s.x32 i).toNat
      = (s.x16 ⟨2 * i.val, by omega⟩).toNat + 65536 * (s.x16 ⟨2 * i.val + 1, by omega⟩).toNat) ∧
    (let t := s.setX16 0 0x1234#16
     t.x8 0 = 0x34#8 ∧ t.x8 1 = 0x12#8 ∧ (t.x32 0).toNat % 65536 = 0x1234)

/-- R11: a write through a view sets that view's bytes and no others. -/
def Obligations.ViewWritesSetTheirBytes : Prop :=
  ∀ (s : State) (k : Fin 32),
    (∀ (i : Fin 32) (v : Byte), (s.setX8 i v).x8 k = if k = i then v else s.x8 k) ∧
    (∀ (i : Fin 16) (v : Half), ((s.setX16 i v).x8 k).toNat
      = if k.val / 2 = i.val then v.toNat / 256 ^ (k.val % 2) % 256 else (s.x8 k).toNat) ∧
    (∀ (i : Fin 8) (v : Word), ((s.setX32 i v).x8 k).toNat
      = if k.val / 4 = i.val then v.toNat / 256 ^ (k.val % 4) % 256 else (s.x8 k).toNat)

/-- R12: MemRead and MemWrite, every address mod 2^16. -/
def Obligations.MemReadMemWrite : Prop :=
  ∀ (m : Memory) (a x : Addr),
    (m.read16 a).toNat = (m.read a).toNat + 2 ^ 8 * (m.read (a + 1#16)).toNat ∧
    (m.read32 a).toNat = (m.read a).toNat + 2 ^ 8 * (m.read (a + 1#16)).toNat + 2 ^ 16 * (m.read (a + 2#16)).toNat
      + 2 ^ 24 * (m.read (a + 3#16)).toNat ∧
    (∀ v : Byte, (m.write a v).read x = if x = a then v else m.read x) ∧
    (∀ v : Half, ((m.write16 a v).read x).toNat
      = if (x - a).toNat < 2 then v.toNat / 2 ^ (8 * (x - a).toNat) % 256 else (m.read x).toNat) ∧
    (∀ v : Word, ((m.write32 a v).read x).toNat
      = if (x - a).toNat < 4 then v.toNat / 2 ^ (8 * (x - a).toNat) % 256 else (m.read x).toNat)

/-- R30: the layout of a process's entry, for every process index byte. -/
def Obligations.ProcessTableLayout : Prop :=
  ∀ (s : State) (p : Byte),
    (pptEntry p).toNat = 1024 + 6 * p.toNat ∧
    s.offset p = s.mem.read16 (pptEntry p) ∧ s.legality p = s.mem.read32 (pptEntry p + 2#16) ∧
    s.superuser p = (s.legality p).getLsbD 31 ∧
    (s.superuser p = true ↔ 128 ≤ (s.mem.read (pptEntry p + 5#16)).toNat) ∧
    (s.superuser 0#8 = true ↔ 128 ≤ (s.mem.read 1029#16).toNat)

/-- R63, on the bits of memory: bit Seg(a) of the legality word lies in byte 2 + Seg(a)/8 of the entry (R57). -/
def Obligations.ReadLegality : Prop :=
  ∀ (s : State) (a : Addr) (p : Byte),
    (s.readLegal a p = true ↔ (s.mem.read (pptEntry p + 5#16)).getLsbD 7 = true ∨
      (s.mem.read (pptEntry p + 2#16 + BitVec.ofNat 16 (a.toNat / 2048 / 8))).getLsbD (a.toNat / 2048 % 8) = true) ∧
    (63488 ≤ a.toNat → (s.readLegal a p = true ↔ s.superuser p = true))

/-- R64: write legality, with the tail judged on the pre-translation address. -/
def Obligations.WriteLegality : Prop :=
  ∀ (s : State) (ea pa : Addr) (p : Byte),
    (s.superuser p = true → s.writeLegal ea pa p = true) ∧
    (s.superuser p = false →
      (s.writeLegal ea pa p = true ↔ s.readLegal ea p = true ∧ pa.toNat % 2048 < 2016) ∧
      (63488 ≤ ea.toNat → s.writeLegal ea pa p = false))

/-- R58: data address translation, with the byte of the offset read as a two's complement number. -/
def Obligations.AddressTranslation : Prop :=
  ∀ (s : State) (b : Fin 16) (k : Byte),
    ((s.preAddr b k).toNat : Int) = ((s.x16 b).toNat + k.toInt) % 2 ^ 16 ∧
    ((s.effAddr b k).toNat : Int) = ((s.offset s.cur).toNat + (s.x16 b).toNat + k.toInt) % 2 ^ 16

/-! ### Instructions -/

/-- The encoding of a row (R78, R83): its opcode in the reference assignment, and the instruction that its opcode and any
three field bytes decode to under every admissible assignment. -/
def Sys2Proof.Machine.Encoded (m : Mnemonic) (n : Byte) (i : Byte → Byte → Byte → Instr) : Prop :=
  opcodeOf .reference m = n ∧ ∀ c : Config, c.wf = true →
    ∀ a₁ a₂ a₃ : Byte, decode c ⟨opcodeOf c m, a₁, a₂, a₃⟩ = i a₁ a₂ a₃

/-- What `TrapTransfer(code, off)` leaves (R160, R162, R163): the five fields, the net target, every other byte, every
register, the run status and the output as before. -/
def Sys2Proof.Machine.TrapTaken (s : State) (code : Byte) (off : Int) (t : State) : Prop :=
  t.returnProcess = s.cur ∧ (t.returnAddress.toNat : Int) = (s.pc.toNat + off) % 2 ^ 16 ∧
  t.requestedCode = code ∧ t.cur = 0#8 ∧ t.pc = s.mem.read16 1125#16 - 4#16 ∧
  (∀ a : Addr, ¬(1120 ≤ a.toNat ∧ a.toNat ≤ 1124) → t.mem.read a = s.mem.read a) ∧ t.arena = s.arena ∧ s.sameRest t

/-- R119, R120: `lim` sets its register to `lo + 256*hi` and no other byte. -/
def Obligations.LimLoadsImmediate : Prop :=
  Encoded .lim 1#8 (fun r lo hi => .lim r (imm16 lo hi)) ∧ ∀ (r lo hi : Byte) (s : State),
    (∀ hr : r.toNat < 16, ∃ t, exec (.lim r (imm16 lo hi)) s = .next t ∧
      (t.x16 ⟨r.toNat, hr⟩).toNat = lo.toNat + 256 * hi.toNat ∧
      (∀ k : Fin 32, k.val / 2 ≠ r.toNat → t.x8 k = s.x8 k) ∧ s.sameMemory t ∧ s.sameControl t) ∧
    (16 ≤ r.toNat → exec (.lim r (imm16 lo hi)) s = .fault (.registerIndex (.lim r (imm16 lo hi))))

/-- R122: `l08`. -/
def Obligations.LoadByteEffect : Prop :=
  Encoded .l08 2#8 .l08 ∧ ∀ (d b k : Byte) (s : State),
    (∀ (hd : d.toNat < 32) (hb : b.toNat < 16),
      (s.readLegal (s.effAddr ⟨b.toNat, hb⟩ k) s.cur = true →
        ∃ t, exec (.l08 d b k) s = .next t ∧ t.x8 ⟨d.toNat, hd⟩ = s.mem.read (s.effAddr ⟨b.toNat, hb⟩ k) ∧
          (∀ j : Fin 32, j.val ≠ d.toNat → t.x8 j = s.x8 j) ∧ s.sameMemory t ∧ s.sameControl t) ∧
      (s.readLegal (s.effAddr ⟨b.toNat, hb⟩ k) s.cur = false →
        ∃ t, exec (.l08 d b k) s = .next t ∧ TrapTaken s 0#8 4 t)) ∧
    (¬(d.toNat < 32 ∧ b.toNat < 16) → exec (.l08 d b k) s = .fault (.registerIndex (.l08 d b k)))

/-- R123: `l16`. -/
def Obligations.LoadHalfEffect : Prop :=
  Encoded .l16 3#8 .l16 ∧ ∀ (d b k : Byte) (s : State),
    (∀ (hd : d.toNat < 16) (hb : b.toNat < 16),
      (s.readLegal (s.effAddr ⟨b.toNat, hb⟩ k) s.cur = true →
        ∃ t, exec (.l16 d b k) s = .next t ∧ t.x16 ⟨d.toNat, hd⟩ = s.mem.read16 (s.effAddr ⟨b.toNat, hb⟩ k) ∧
          (∀ j : Fin 32, j.val / 2 ≠ d.toNat → t.x8 j = s.x8 j) ∧ s.sameMemory t ∧ s.sameControl t) ∧
      (s.readLegal (s.effAddr ⟨b.toNat, hb⟩ k) s.cur = false →
        ∃ t, exec (.l16 d b k) s = .next t ∧ TrapTaken s 0#8 4 t)) ∧
    (¬(d.toNat < 16 ∧ b.toNat < 16) → exec (.l16 d b k) s = .fault (.registerIndex (.l16 d b k)))

/-- R124: `l32` with destination d and base b, under both values of `l32Order`. -/
def Obligations.LoadWordEffect : Prop :=
  Encoded .l32 4#8 .l32 ∧ ∀ (d b k : Byte) (s : State) (i : Instr),
    (s.cfg.l32Order = .destFirst ∧ i = .l32 d b k) ∨ (s.cfg.l32Order = .addrFirst ∧ i = .l32 b d k) →
    (∀ (hd : d.toNat < 8) (hb : b.toNat < 16),
      (s.readLegal (s.effAddr ⟨b.toNat, hb⟩ k) s.cur = true →
        ∃ t, exec i s = .next t ∧ t.x32 ⟨d.toNat, hd⟩ = s.mem.read32 (s.effAddr ⟨b.toNat, hb⟩ k) ∧
          (∀ j : Fin 32, j.val / 4 ≠ d.toNat → t.x8 j = s.x8 j) ∧ s.sameMemory t ∧ s.sameControl t) ∧
      (s.readLegal (s.effAddr ⟨b.toNat, hb⟩ k) s.cur = false →
        ∃ t, exec i s = .next t ∧ TrapTaken s 0#8 4 t)) ∧
    (¬(d.toNat < 8 ∧ b.toNat < 16) → exec i s = .fault (.registerIndex i))

/-- R126: `s08`. -/
def Obligations.StoreByteEffect : Prop :=
  Encoded .s08 5#8 .s08 ∧ ∀ (r b k : Byte) (s : State),
    (∀ (hr : r.toNat < 32) (hb : b.toNat < 16),
      (s.writeLegal (s.effAddr ⟨b.toNat, hb⟩ k) (s.preAddr ⟨b.toNat, hb⟩ k) s.cur = true →
        ∃ t, exec (.s08 r b k) s = .next t ∧ t.mem.read (s.effAddr ⟨b.toNat, hb⟩ k) = s.x8 ⟨r.toNat, hr⟩ ∧
          (∀ a, a ≠ s.effAddr ⟨b.toNat, hb⟩ k → t.mem.read a = s.mem.read a) ∧ t.arena = s.arena ∧ s.sameControl t) ∧
      (s.writeLegal (s.effAddr ⟨b.toNat, hb⟩ k) (s.preAddr ⟨b.toNat, hb⟩ k) s.cur = false →
        ∃ t, exec (.s08 r b k) s = .next t ∧ TrapTaken s 0#8 4 t)) ∧
    (¬(r.toNat < 32 ∧ b.toNat < 16) → exec (.s08 r b k) s = .fault (.registerIndex (.s08 r b k)))

/-- R127: `s16`. -/
def Obligations.StoreHalfEffect : Prop :=
  Encoded .s16 6#8 .s16 ∧ ∀ (r b k : Byte) (s : State),
    (∀ (hr : r.toNat < 16) (hb : b.toNat < 16),
      (s.writeLegal (s.effAddr ⟨b.toNat, hb⟩ k) (s.preAddr ⟨b.toNat, hb⟩ k) s.cur = true →
        ∃ t, exec (.s16 r b k) s = .next t ∧ t.mem.read16 (s.effAddr ⟨b.toNat, hb⟩ k) = s.x16 ⟨r.toNat, hr⟩ ∧
          (∀ a, 2 ≤ (a - s.effAddr ⟨b.toNat, hb⟩ k).toNat → t.mem.read a = s.mem.read a) ∧ t.arena = s.arena ∧
          s.sameControl t) ∧
      (s.writeLegal (s.effAddr ⟨b.toNat, hb⟩ k) (s.preAddr ⟨b.toNat, hb⟩ k) s.cur = false →
        ∃ t, exec (.s16 r b k) s = .next t ∧ TrapTaken s 0#8 4 t)) ∧
    (¬(r.toNat < 16 ∧ b.toNat < 16) → exec (.s16 r b k) s = .fault (.registerIndex (.s16 r b k)))

/-- R128: `s32`, whatever `l32Order` is. -/
def Obligations.StoreWordEffect : Prop :=
  Encoded .s32 7#8 .s32 ∧ ∀ (r b k : Byte) (s : State),
    (∀ (hr : r.toNat < 8) (hb : b.toNat < 16),
      (s.writeLegal (s.effAddr ⟨b.toNat, hb⟩ k) (s.preAddr ⟨b.toNat, hb⟩ k) s.cur = true →
        ∃ t, exec (.s32 r b k) s = .next t ∧ t.mem.read32 (s.effAddr ⟨b.toNat, hb⟩ k) = s.x32 ⟨r.toNat, hr⟩ ∧
          (∀ a, 4 ≤ (a - s.effAddr ⟨b.toNat, hb⟩ k).toNat → t.mem.read a = s.mem.read a) ∧ t.arena = s.arena ∧
          s.sameControl t) ∧
      (s.writeLegal (s.effAddr ⟨b.toNat, hb⟩ k) (s.preAddr ⟨b.toNat, hb⟩ k) s.cur = false →
        ∃ t, exec (.s32 r b k) s = .next t ∧ TrapTaken s 0#8 4 t)) ∧
    (¬(r.toNat < 8 ∧ b.toNat < 16) → exec (.s32 r b k) s = .fault (.registerIndex (.s32 r b k)))

/-- The common form of the REG3 instructions (R132): the result of `f` on both sources as they were before the write. -/
def Sys2Proof.Machine.AluForm (m : Mnemonic) (n : Byte) (i : Byte → Byte → Byte → Instr)
    (f : Nat → Nat → Nat) : Prop :=
  Encoded m n i ∧ ∀ (d r₁ r₂ : Byte) (s : State),
    (∀ (hd : d.toNat < 16) (h1 : r₁.toNat < 16) (h2 : r₂.toNat < 16),
      ∃ t, exec (i d r₁ r₂) s = .next t ∧
        (t.x16 ⟨d.toNat, hd⟩).toNat = f (s.x16 ⟨r₁.toNat, h1⟩).toNat (s.x16 ⟨r₂.toNat, h2⟩).toNat % 2 ^ 16 ∧
        (∀ k : Fin 32, k.val / 2 ≠ d.toNat → t.x8 k = s.x8 k) ∧ s.sameMemory t ∧ s.sameControl t) ∧
    (¬(d.toNat < 16 ∧ r₁.toNat < 16 ∧ r₂.toNat < 16) →
      exec (i d r₁ r₂) s = .fault (.registerIndex (i d r₁ r₂)))

/-- R133 to R136: the bitwise instructions. -/
def Obligations.BitwiseResults : Prop :=
  AluForm .and 13#8 .and (fun a b => a &&& b) ∧
  AluForm .eth 14#8 .eth (fun a b => a ||| b) ∧ AluForm .xor 15#8 .xor (fun a b => a ^^^ b) ∧
  AluForm .nor 16#8 .nor (fun a b => 0xFFFF - (a ||| b))

/-- R137, R138: `add` and `adc`, whose carry-in is the constant 1. -/
def Obligations.AddResults : Prop :=
  AluForm .add 17#8 .add (fun a b => a + b) ∧
  AluForm .adc 18#8 .adc (fun a b => a + b + 1)

/-- R139, R140: the shifts by the whole 16-bit value of the second source (for amounts of 16 and more
notes/assumptions/13.md). -/
def Obligations.ShiftResults : Prop :=
  AluForm .shl 19#8 .shl (fun a b => a * 2 ^ b) ∧
  AluForm .shr 20#8 .shr (fun a b => a / 2 ^ b)

/-- R141: `adc` with the one's complement of b subtracts b. -/
def Obligations.AdcOfComplementSubtracts : Prop :=
  ∀ (d a n : Byte) (s : State) (hd : d.toNat < 16) (ha : a.toNat < 16) (hn : n.toNat < 16) (b : Half),
    s.x16 ⟨n.toNat, hn⟩ = ~~~b →
    ∃ t, exec (.adc d a n) s = .next t ∧
      ((t.x16 ⟨d.toNat, hd⟩).toNat : Int) = ((s.x16 ⟨a.toNat, ha⟩).toNat - b.toNat) % 2 ^ 16

/-- R143, R144: `jal` writes its link first; the target is read after that; an illegal target traps with the link
written. -/
def Obligations.JalLinksThenJumps : Prop :=
  Encoded .jal 8#8 .jal ∧ ∀ (d b k : Byte) (s : State),
    (∀ (hd : d.toNat < 16) (hb : b.toNat < 16) (link target : Addr),
      (link.toNat : Int) = (s.pc.toNat + k.toInt + 4) % 2 ^ 16 →
      target = (if b = d then link else s.x16 ⟨b.toNat, hb⟩) →
      (s.readLegal target s.cur = true →
        ∃ t, exec (.jal d b k) s = .next t ∧ t.x16 ⟨d.toNat, hd⟩ = link ∧ t.pc = target - 4#16 ∧
          (∀ j : Fin 32, j.val / 2 ≠ d.toNat → t.x8 j = s.x8 j) ∧ s.sameMemory t ∧ s.sameRest t) ∧
      (s.readLegal target s.cur = false →
        ∃ t, exec (.jal d b k) s = .next t ∧ TrapTaken (s.setX16 ⟨d.toNat, hd⟩ link) 0#8 4 t)) ∧
    (¬(d.toNat < 16 ∧ b.toNat < 16) → exec (.jal d b k) s = .fault (.registerIndex (.jal d b k)))

/-- The common form of the branches (R146): taken and legal, taken and illegal, not taken, out of view. -/
def Sys2Proof.Machine.BranchForm (m : Mnemonic) (n : Byte) (i : Byte → Byte → Byte → Instr)
    (c : Nat → Nat → Prop) : Prop :=
  Encoded m n i ∧ ∀ (r₁ r₂ k : Byte) (s : State),
    (∀ (h1 : r₁.toNat < 16) (h2 : r₂.toNat < 16) (target : Addr),
      (target.toNat : Int) = (s.pc.toNat + k.toInt) % 2 ^ 16 →
      (c (s.x16 ⟨r₁.toNat, h1⟩).toNat (s.x16 ⟨r₂.toNat, h2⟩).toNat →
        (s.readLegal target s.cur = true →
          ∃ t, exec (i r₁ r₂ k) s = .next t ∧ t.pc = target - 4#16 ∧ t.arena = s.arena ∧ s.sameMemory t ∧ s.sameRest t) ∧
        (s.readLegal target s.cur = false →
          ∃ t, exec (i r₁ r₂ k) s = .next t ∧ TrapTaken s 0#8 4 t)) ∧
      (¬c (s.x16 ⟨r₁.toNat, h1⟩).toNat (s.x16 ⟨r₂.toNat, h2⟩).toNat → exec (i r₁ r₂ k) s = .next s)) ∧
    (¬(r₁.toNat < 16 ∧ r₂.toNat < 16) → exec (i r₁ r₂ k) s = .fault (.registerIndex (i r₁ r₂ k)))

/-- R147, R148: `beq` and `bne`. -/
def Obligations.EqualityBranches : Prop :=
  BranchForm .beq 9#8 .beq (fun a b => a = b) ∧
  BranchForm .bne 10#8 .bne (fun a b => a ≠ b)

/-- R149, R150: `blt` and `bgt`, unsigned. -/
def Obligations.OrderBranches : Prop :=
  BranchForm .blt 11#8 .blt (fun a b => a < b) ∧
  BranchForm .bgt 12#8 .bgt (fun a b => a > b)

/-- R146, R151: a taken branch with offset 0, of any of the four kinds, repeats, whatever its cycle's poll does; with the
console flag clear its cycle changes nothing at all, so the program runs forever (R204). -/
def Obligations.BranchToItselfRepeats : Prop :=
  ∀ (s : State) (r₁ r₂ : Byte) (h1 : r₁.toNat < 16) (h2 : r₂.toNat < 16), s.fetches →
    (let a := (s.x16 ⟨r₁.toNat, h1⟩).toNat
     let b := (s.x16 ⟨r₂.toNat, h2⟩).toNat
     (decode s.cfg s.fetch = .beq r₁ r₂ 0#8 ∧ a = b) ∨ (decode s.cfg s.fetch = .bne r₁ r₂ 0#8 ∧ a ≠ b) ∨
     (decode s.cfg s.fetch = .blt r₁ r₂ 0#8 ∧ a < b) ∨ (decode s.cfg s.fetch = .bgt r₁ r₂ 0#8 ∧ a > b)) →
    (∃ t, step s = .next t ∧ t.pc = s.pc ∧ t.run = .running ∧ t.arena = s.arena ∧
      (∀ a, a ≠ 1022#16 → t.mem.read a = s.mem.read a) ∧ t.mem.read 1022#16 = 0#8 ∧
      t.out = if s.consoleFlag = 0#8 then s.out else s.out ++ [s.consoleData]) ∧
    (s.consoleFlag = 0#8 → step s = .next s ∧ s.runsForever)

/-! ### Traps -/

/-- R154, R161: `int` takes the trap transfer with its code and its signed offset; its third field is ignored. -/
def Obligations.IntTakesTheTrap : Prop :=
  Encoded .int 21#8 (fun code off _ => .int code off) ∧
  ∀ (code off : Byte) (s : State), ∃ t, exec (.int code off) s = .next t ∧ TrapTaken s code off.toInt t

/-- R111, R166: a cycle whose execute phase traps, the link write of a trapping `jal` included, continues with the poll
and ends at the handler under process 0, with the registers the execute phase left. -/
def Obligations.TrapCycleEntersHandler : Prop :=
  ∀ (s u : State) (code : Byte) (off : Int), s.fetches → exec (decode s.cfg s.fetch) s = .next u →
    TrapTaken (s.withArena u.arena) code off u →
    ∃ t, step s = .next t ∧ t.pc = s.handlerPointer ∧ t.cur = 0#8 ∧ t.returnProcess = s.cur ∧
      t.returnAddress = u.returnAddress ∧ t.requestedCode = code ∧ t.arena = u.arena ∧
      t.mem.read 1022#16 = 0#8 ∧ t.out = if s.consoleFlag = 0#8 then s.out else s.out ++ [s.consoleData]

/-- R111, S5: one cycle of `int` lands on the handler, under process 0, with the registers of the interrupted process. -/
def Obligations.IntCycleEntersHandler : Prop :=
  ∀ (s : State) (code off : Byte), s.fetches → decode s.cfg s.fetch = .int code off →
    ∃ t, step s = .next t ∧ t.pc = s.handlerPointer ∧ t.cur = 0#8 ∧ t.returnProcess = s.cur ∧
      (t.returnAddress.toNat : Int) = (s.pc.toNat + off.toInt) % 2 ^ 16 ∧ t.requestedCode = code ∧
      t.arena = s.arena ∧ t.run = .running ∧
      t.out = if s.consoleFlag = 0#8 then s.out else s.out ++ [s.consoleData]

/-! ### Runs -/

/-- R204: a run that ends within the fuel does not depend on the fuel; a run that does not is at the state after the last
cycle run. -/
def Obligations.FuelOnlyCutsARunShort : Prop :=
  ∀ (n m : Nat) (s : State),
    (n ≤ m → (runFuel n s).status ≠ .outOfFuel → runFuel m s = runFuel n s) ∧
    ((runFuel n s).status = .outOfFuel →
      Host.Core.run Sys2Proof.core n s = .next (runFuel n s).final ∧ (runFuel n s).final.run = .running)

/-! ### The assembler -/

/-- R88: an assembled instruction line decodes, under the same assignment, to its own mnemonic and operands. -/
def Obligations.AssembledLineDecodes : Prop :=
  ∀ (c : Config) (m : Mnemonic) (ops : List Operand) (a : Byte × Byte × Byte), c.wf = true →
    (∀ o ∈ ops, assemblerRange o) → packOperands (mnemonicShape m) ops = .ok a →
    ∃ b, assembleInstr c (lineText m ops) = .ok b ∧ (decode c b).mnemonic = m ∧
      List.Forall₂ (sameOperand m) ops (instrOperands (decode c b))

/-- R95, R96: the truncation law. -/
def Obligations.TruncationLaw : Prop :=
  (∀ v w : Int, pack16 v = pack16 w ↔ v % 2 ^ 16 = w % 2 ^ 16) ∧
  (∀ v w : Int, pack8 v = pack8 w ↔ v % 2 ^ 8 = w % 2 ^ 8) ∧
  (∀ c, assembleLine c (ascii "lim r0 d65537") = assembleLine c (ascii "lim r0 d1")) ∧
  (∀ c, assembleLine c (ascii "beq r0 r1 d256") = assembleLine c (ascii "beq r0 r1 d0"))

/-- R99: every byte string can be written as a string-data line that emits exactly it. -/
def Obligations.StringDataEmitsItsBytes : Prop :=
  ∀ (c : Config) (bs : List Byte), assembleLine c (0x22#8 :: (stringText bs ++ [0x22#8])) = .ok bs

/-- Lines emit their bytes in order, with no padding (R89), and an error aborts the whole pass (R101). That a line ends at
byte 10, and that the pass answers with the line's own `AsmError`, are the model's choices (notes/assumptions/15.md). -/
def Obligations.LinesConcatenate : Prop :=
  ∀ (c : Config) (line rest : List Byte), 10#8 ∉ line →
    (∀ x y, assembleLine c line = .ok x → assemble c rest = .ok y → assemble c (line ++ 10#8 :: rest) = .ok (x ++ y)) ∧
    (∀ e, assembleLine c line = .error e → assemble c (line ++ 10#8 :: rest) = .error e) ∧
    (∀ x e, assembleLine c line = .ok x → assemble c rest = .error e → assemble c (line ++ 10#8 :: rest) = .error e)

/-! ### Runs without a budget -/

/-- R9, R204: a run without a budget ends as the budgeted runs that are long enough do, in at most one way, and it has no
end exactly when no budget is enough; the same for the run of an image. That "none" is a relation beside the budgeted
function is the model's form (notes/assumptions/14.md). -/
def Obligations.UnbudgetedRunIsEveryLongRun : Prop :=
  ∀ s : State,
    (∀ r, runsTo none s r ↔ ∃ n, runsTo (some n) s r ∧ r.status ≠ .outOfFuel) ∧
    (∀ r r', runsTo none s r → runsTo none s r' → r = r') ∧
    (s.runsForever ↔ ¬∃ r, runsTo none s r) ∧
    (∀ c A img r, imageRunsTo c A img none r ↔ ∃ n, runImage c A img n = some r ∧ r.status ≠ .outOfFuel)
end

