-- ==== Sys2Proof/Laws/Memory.lean ====
section
/-! SUPPORT. Laws/Memory.lean: the laws of memory: reading what was written, leaving every other byte alone, keeping the
canonical form, and equal contents being equal data. -/

namespace Sys2Proof.Machine

/-! ### Reading cells -/

theorem readCells_filter_ne (cs : List Host.Cell) {a x : Nat} (h : x ≠ a) :
    readCells (cs.filter fun c => c.1 != a) x = readCells cs x := by
  induction cs with
  | nil => rfl
  | cons c cs ih =>
    obtain ⟨k, b⟩ := c
    by_cases hk : k = a
    · simp [readCells, hk, ih, Ne.symm h]
    · simp [readCells, hk, ih]

theorem readCells_filter_self (cs : List Host.Cell) (a : Nat) :
    readCells (cs.filter fun c => c.1 != a) a = 0#8 := by
  induction cs with
  | nil => rfl
  | cons c cs ih =>
    obtain ⟨k, b⟩ := c
    by_cases hk : k = a
    · simp [hk, ih]
    · simp [readCells, hk, ih]

theorem readCells_insert_ne (cs : List Host.Cell) {a x : Nat} (v : Byte) (h : x ≠ a) :
    readCells (insertCell a v cs) x = readCells cs x := by
  induction cs with
  | nil => simp [insertCell, readCells, Ne.symm h]
  | cons c cs ih =>
    obtain ⟨k, b⟩ := c
    by_cases hk : a < k
    · simp [insertCell, readCells, hk, Ne.symm h]
    · simp [insertCell, readCells, hk, ih]

theorem readCells_insert_self (cs : List Host.Cell) (a : Nat) (v : Byte) :
    readCells (insertCell a v (cs.filter fun c => c.1 != a)) a = v := by
  induction cs with
  | nil => simp [insertCell, readCells]
  | cons c cs ih =>
    obtain ⟨k, b⟩ := c
    by_cases hk : k = a
    · simp [hk, ih]
    · by_cases hlt : a < k
      · simp [insertCell, readCells, hk, hlt]
      · simp [insertCell, readCells, hk, hlt, ih]

/-! ### Read after write -/

/-- A read after a write of one byte: the value written at its address, the old byte everywhere else. -/
theorem Memory.read_write (m : Memory) (a x : Addr) (v : Byte) :
    (m.write a v).read x = if x = a then v else m.read x := by
  unfold Memory.read Memory.write writeCells
  by_cases h : x = a
  · subst h
    by_cases hv : v = 0#8
    · simp [hv, readCells_filter_self]
    · simp [hv, readCells_insert_self]
  · have hn : x.toNat ≠ a.toNat := fun e => h (BitVec.eq_of_toNat_eq e)
    by_cases hv : v = 0#8
    · simp [hv, h, readCells_filter_ne _ hn]
    · simp [hv, h, readCells_insert_ne _ _ hn, readCells_filter_ne _ hn]

@[simp] theorem Memory.read_write_self (m : Memory) (a : Addr) (v : Byte) : (m.write a v).read a = v := by
  simp [Memory.read_write]

theorem Memory.read_write_of_ne (m : Memory) {a x : Addr} (v : Byte) (h : x ≠ a) : (m.write a v).read x = m.read x := by
  simp [Memory.read_write, h]

/-- Every byte after a two-byte write (spec/00_scope.md R12). -/
theorem Memory.read_write16 (m : Memory) (a x : Addr) (v : Half) :
    (m.write16 a v).read x
      = if x = a + 1#16 then v.extractLsb' 8 8 else if x = a then v.extractLsb' 0 8 else m.read x := by
  simp [Memory.write16, Memory.read_write]

/-- Every byte after a four-byte write (R12). -/
theorem Memory.read_write32 (m : Memory) (a x : Addr) (v : Word) :
    (m.write32 a v).read x
      = if x = a + 3#16 then v.extractLsb' 24 8 else if x = a + 2#16 then v.extractLsb' 16 8
        else if x = a + 1#16 then v.extractLsb' 8 8 else if x = a then v.extractLsb' 0 8 else m.read x := by
  simp [Memory.write32, Memory.read_write]

/-- Two-byte reads depend on their two bytes alone. -/
theorem Memory.read16_congr {m n : Memory} {a : Addr} (h0 : m.read a = n.read a) (h1 : m.read (a + 1#16) = n.read (a + 1#16)) :
    m.read16 a = n.read16 a := by simp [Memory.read16, h0, h1]

/-- Four-byte reads depend on their four bytes alone. -/
theorem Memory.read32_congr {m n : Memory} {a : Addr} (h0 : m.read a = n.read a) (h1 : m.read (a + 1#16) = n.read (a + 1#16))
    (h2 : m.read (a + 2#16) = n.read (a + 2#16)) (h3 : m.read (a + 3#16) = n.read (a + 3#16)) : m.read32 a = n.read32 a := by
  simp [Memory.read32, h0, h1, h2, h3]

/-! ### The canonical form -/

theorem cellsFrom_mono {lo lo' : Nat} (h : lo' ≤ lo) : ∀ {cs : List Host.Cell}, cellsFrom lo cs = true → cellsFrom lo' cs = true
  | [], _ => rfl
  | (k, b) :: rest, hc => by
    simp only [cellsFrom, Bool.and_eq_true, decide_eq_true_eq] at hc ⊢
    exact ⟨⟨⟨by omega, hc.1.1.2⟩, hc.1.2⟩, hc.2⟩

theorem cellsFrom_filter (a : Nat) : ∀ {cs : List Host.Cell} {lo : Nat}, cellsFrom lo cs = true →
    cellsFrom lo (cs.filter fun c => c.1 != a) = true
  | [], _, _ => rfl
  | (k, b) :: rest, lo, hc => by
    simp only [cellsFrom, Bool.and_eq_true, decide_eq_true_eq] at hc
    have ih := cellsFrom_filter a hc.2
    by_cases hk : k = a
    · simpa [hk] using cellsFrom_mono (by omega) ih
    · simp only [bne_iff_ne, ne_eq, hk, not_false_eq_true, List.filter_cons_of_pos, cellsFrom, Bool.and_eq_true,
        decide_eq_true_eq, ih, and_true]
      exact ⟨hc.1.1, by simpa using hc.1.2⟩

theorem cellsFrom_insert {a : Nat} {v : Byte} (ha : a < 65536) (hv : v ≠ 0#8) : ∀ {cs : List Host.Cell} {lo : Nat},
    lo ≤ a → (∀ c ∈ cs, c.1 ≠ a) → cellsFrom lo cs = true → cellsFrom lo (insertCell a v cs) = true
  | [], lo, hlo, _, _ => by simp [insertCell, cellsFrom, hlo, ha, hv]
  | (k, b) :: rest, lo, hlo, hne, hc => by
    simp only [cellsFrom, Bool.and_eq_true, decide_eq_true_eq] at hc
    have hk : k ≠ a := hne (k, b) (by simp)
    by_cases hlt : a < k
    · simp only [insertCell, hlt, ↓reduceIte, cellsFrom, Bool.and_eq_true, decide_eq_true_eq, bne_iff_ne, ne_eq]
      exact ⟨⟨⟨hlo, ha⟩, hv⟩, ⟨⟨by omega, hc.1.1.2⟩, by simpa using hc.1.2⟩, hc.2⟩
    · simp only [insertCell, hlt, ↓reduceIte, cellsFrom, Bool.and_eq_true, decide_eq_true_eq]
      exact ⟨hc.1, cellsFrom_insert ha hv (by omega) (fun c h => hne c (by simp [h])) hc.2⟩

/-- A write keeps the canonical form. -/
theorem Memory.wf_write {m : Memory} (a : Addr) (v : Byte) (h : m.wf = true) : (m.write a v).wf = true := by
  unfold Memory.wf Memory.write writeCells at *
  by_cases hv : v = 0#8
  · simpa [hv] using cellsFrom_filter a.toNat h
  · simp only [hv, ↓reduceIte]
    exact cellsFrom_insert a.isLt hv (Nat.zero_le _) (by simp) (cellsFrom_filter a.toNat h)

theorem Memory.wf_write16 {m : Memory} (a : Addr) (v : Half) (h : m.wf = true) : (m.write16 a v).wf = true :=
  Memory.wf_write _ _ (Memory.wf_write _ _ h)

theorem Memory.wf_write32 {m : Memory} (a : Addr) (v : Word) (h : m.wf = true) : (m.write32 a v).wf = true :=
  Memory.wf_write _ _ (Memory.wf_write _ _ (Memory.wf_write _ _ (Memory.wf_write _ _ h)))

/-! ### Equal contents are equal data -/

theorem readCells_below : ∀ {cs : List Host.Cell} {lo x : Nat}, cellsFrom lo cs = true → x < lo → readCells cs x = 0#8
  | [], _, _, _, _ => rfl
  | (k, b) :: rest, lo, x, hc, hx => by
    simp only [cellsFrom, Bool.and_eq_true, decide_eq_true_eq] at hc
    have hk : k ≠ x := by omega
    simp only [readCells, hk, ↓reduceIte]
    exact readCells_below hc.2 (by omega)

theorem cells_ext : ∀ {cs ds : List Host.Cell} {lo : Nat}, cellsFrom lo cs = true → cellsFrom lo ds = true →
    (∀ x, x < 65536 → readCells cs x = readCells ds x) → cs = ds
  | [], [], _, _, _, _ => rfl
  | [], (k, b) :: ds, lo, _, hd, h => by
    simp only [cellsFrom, Bool.and_eq_true, decide_eq_true_eq, bne_iff_ne] at hd
    exact absurd (h k hd.1.1.2).symm (by simpa [readCells] using hd.1.2)
  | (k, b) :: cs, [], lo, hc, _, h => by
    simp only [cellsFrom, Bool.and_eq_true, decide_eq_true_eq, bne_iff_ne] at hc
    exact absurd (h k hc.1.1.2) (by simpa [readCells] using hc.1.2)
  | (k, b) :: cs, (k', b') :: ds, lo, hc, hd, h => by
    simp only [cellsFrom, Bool.and_eq_true, decide_eq_true_eq, bne_iff_ne] at hc hd
    have hkk : k = k' := by
      rcases Nat.lt_trichotomy k k' with hlt | heq | hgt
      · have := h k hc.1.1.2
        rw [readCells, if_pos rfl, readCells, if_neg (by omega), readCells_below hd.2 (by omega)] at this
        exact absurd this hc.1.2
      · exact heq
      · have := h k' hd.1.1.2
        rw [readCells, if_neg (by omega), readCells_below hc.2 (by omega), readCells, if_pos rfl] at this
        exact absurd this.symm hd.1.2
    subst hkk
    have hb : b = b' := by simpa [readCells] using h k hc.1.1.2
    subst hb
    have ht : cs = ds := by
      refine cells_ext hc.2 hd.2 fun x hx => ?_
      by_cases hxk : x = k
      · rw [readCells_below hc.2 (by omega), readCells_below hd.2 (by omega)]
      · simpa [readCells, Ne.symm hxk] using h x hx
    rw [ht]

/-- Two memories in canonical form that read the same everywhere are the same data. -/
theorem Memory.ext_read {m n : Memory} (hm : m.wf = true) (hn : n.wf = true) (h : ∀ a, m.read a = n.read a) : m = n := by
  have : m.cells = n.cells := cells_ext hm hn fun x hx => by
    have := h (BitVec.ofNat 16 x)
    simpa [Memory.read, Nat.mod_eq_of_lt hx] using this
  cases m; cases n; simp_all

/-! ### The image -/

theorem cellsFrom_image : ∀ (img : List Byte) (k : Nat), k + img.length ≤ 65536 → cellsFrom k (imageCells k img) = true
  | [], _, _ => rfl
  | b :: bs, k, h => by
    have ih := cellsFrom_image bs (k + 1) (by simp at h; omega)
    by_cases hb : b = 0#8
    · simpa [imageCells, hb] using cellsFrom_mono (Nat.le_succ k) ih
    · simp only [imageCells, hb, ↓reduceIte, cellsFrom, Bool.and_eq_true, decide_eq_true_eq, bne_iff_ne, ne_eq,
        not_false_eq_true, and_true, le_refl, true_and, ih]
      simp at h; omega

theorem readCells_image_below : ∀ (img : List Byte) (k : Nat) {x : Nat}, x < k → readCells (imageCells k img) x = 0#8
  | [], _, _, _ => rfl
  | b :: bs, k, x, h => by
    have ih := readCells_image_below bs (k + 1) (x := x) (by omega)
    by_cases hb : b = 0#8
    · simpa [imageCells, hb] using ih
    · simpa [imageCells, hb, readCells, show k ≠ x by omega] using ih

/-- A byte of the loaded image: its byte of the image, 0 beyond it (spec/10_state.md R42). -/
theorem readCells_image : ∀ (img : List Byte) (k i : Nat), readCells (imageCells k img) (k + i) = img.getD i 0#8
  | [], _, _ => rfl
  | b :: bs, k, 0 => by
    by_cases hb : b = 0#8
    · simpa [imageCells, hb] using readCells_image_below bs (k + 1) (x := k) (by omega)
    · simp [imageCells, hb, readCells]
  | b :: bs, k, i + 1 => by
    have ih := readCells_image bs (k + 1) i
    rw [show k + 1 + i = k + (i + 1) by omega] at ih
    by_cases hb : b = 0#8
    · simpa [imageCells, hb] using ih
    · simpa [imageCells, hb, readCells] using ih

/-- Every byte of memory at reset (spec/70_reset_and_hazards.md R187, R188). -/
theorem resetMemory_read (img : List Byte) (a : Addr) :
    (resetMemory img).read a
      = if a = 1029#16 then img.getD 1029 0#8 ||| 0x80#8 else if a = 1120#16 then 0#8 else img.getD a.toNat 0#8 := by
  have himg (x : Addr) : (Memory.mk (imageCells 0 img)).read x = img.getD x.toNat 0#8 := by
    simpa [Memory.read] using readCells_image img 0 x.toNat
  by_cases h : a = 1029#16 <;> simp [resetMemory, Memory.read_write, himg, h]

/-- Memory at reset is in canonical form. -/
theorem resetMemory_wf {img : List Byte} (h : img.length ≤ 65536) : (resetMemory img).wf = true :=
  Memory.wf_write _ _ (Memory.wf_write _ _ (cellsFrom_image img 0 (by omega)))

end Sys2Proof.Machine
end

