-- ==== Sys2Proof/Laws/Registers.lean ====
section
/-! SUPPORT. Laws/Registers.lean: the three views of one arena (spec/10_state.md R19, R20): every byte after a write
through any view, and every view read back. -/

namespace Sys2Proof.Machine

/-! ### Splitting and joining bytes -/

theorem append_extract16 (v : Half) : v.extractLsb' 8 8 ++ v.extractLsb' 0 8 = v := by
  apply BitVec.eq_of_toNat_eq
  have := v.isLt
  simp only [BitVec.toNat_append, BitVec.extractLsb'_toNat, Nat.shiftRight_eq_div_pow, Nat.shiftLeft_eq]
  rw [Nat.mul_comm, ← Nat.two_pow_add_eq_or_of_lt (Nat.mod_lt _ (by norm_num))]
  omega

theorem append_extract32 (v : Word) :
    v.extractLsb' 24 8 ++ (v.extractLsb' 16 8 ++ (v.extractLsb' 8 8 ++ v.extractLsb' 0 8)) = v := by
  apply BitVec.eq_of_getLsbD_eq
  intro i hi
  simp only [BitVec.getLsbD_append, BitVec.getLsbD_extractLsb']
  by_cases h1 : i < 8
  · simp [h1, show i < 16 by omega, show i < 24 by omega]
  · by_cases h2 : i < 16
    · simp [h1, h2, show i < 24 by omega, show i - 8 < 8 by omega, show 8 + (i - 8) = i by omega]
    · by_cases h3 : i < 24
      · simp [h2, h3, show i - 16 < 8 by omega, show 16 + (i - 16) = i by omega]
      · simp [h3, show i - 24 < 8 by omega, show 24 + (i - 24) = i by omega]

/-- An appended value is the sum of its parts. -/
theorem toNat_append_add {w v : Nat} (x : BitVec w) (y : BitVec v) : (x ++ y).toNat = y.toNat + 2 ^ v * x.toNat := by
  rw [BitVec.toNat_append, Nat.shiftLeft_eq, Nat.mul_comm, ← Nat.two_pow_add_eq_or_of_lt y.isLt, Nat.add_comm]

/-- `lo + 256*hi` (spec/00_scope.md R11, R12). -/
theorem toNat_append16 (h l : Byte) : (h ++ l : Half).toNat = l.toNat + 256 * h.toNat := toNat_append_add h l

/-- `b0 + 2^8*b1 + 2^16*b2 + 2^24*b3` (R11, R12). -/
theorem toNat_append32 (b3 b2 b1 b0 : Byte) :
    (b3 ++ (b2 ++ (b1 ++ b0)) : Word).toNat
      = b0.toNat + 2 ^ 8 * b1.toNat + 2 ^ 16 * b2.toNat + 2 ^ 24 * b3.toNat := by
  have := toNat_append_add b3 (b2 ++ (b1 ++ b0))
  rw [toNat_append_add b2 (b1 ++ b0), toNat_append_add b1 b0] at this
  simpa [Nat.add_assoc] using this

theorem extract_append16_lo (h l : Byte) : (h ++ l : Half).extractLsb' 0 8 = l := by
  apply BitVec.eq_of_toNat_eq
  have h1 := h.isLt
  have h2 := l.isLt
  simp only [BitVec.extractLsb'_toNat, toNat_append16, Nat.shiftRight_eq_div_pow]
  omega

theorem extract_append16_hi (h l : Byte) : (h ++ l : Half).extractLsb' 8 8 = h := by
  apply BitVec.eq_of_toNat_eq
  have h1 := h.isLt
  have h2 := l.isLt
  simp only [BitVec.extractLsb'_toNat, toNat_append16, Nat.shiftRight_eq_div_pow]
  omega

/-! ### Every byte after a write -/

theorem readX8_writeX8 (A : Arena) (i k : Fin 32) (v : Byte) :
    readX8 (writeX8 A i v) k = if k.val = i.val then v else readX8 A k := by
  simp [readX8, writeX8, Vector.getElem_set, eq_comm]

theorem readX8_writeX16 (A : Arena) (i : Fin 16) (k : Fin 32) (v : Half) :
    readX8 (writeX16 A i v) k
      = if k.val = 2 * i.val + 1 then v.extractLsb' 8 8 else if k.val = 2 * i.val then v.extractLsb' 0 8
        else readX8 A k := by
  simp [readX8, writeX16, Vector.getElem_set, eq_comm]

theorem readX8_writeX32 (A : Arena) (i : Fin 8) (k : Fin 32) (v : Word) :
    readX8 (writeX32 A i v) k
      = if k.val = 4 * i.val + 3 then v.extractLsb' 24 8 else if k.val = 4 * i.val + 2 then v.extractLsb' 16 8
        else if k.val = 4 * i.val + 1 then v.extractLsb' 8 8 else if k.val = 4 * i.val then v.extractLsb' 0 8
        else readX8 A k := by
  simp [readX8, writeX32, Vector.getElem_set, eq_comm]

/-- Two arenas with equal bytes are equal. -/
theorem arena_ext {A B : Arena} (h : ∀ k, readX8 A k = readX8 B k) : A = B :=
  Vector.ext fun k hk => h ⟨k, hk⟩

/-! ### Views in terms of bytes and of each other -/

theorem readX16_eq (A : Arena) (i : Fin 16) :
    readX16 A i = readX8 A ⟨2 * i.val + 1, by omega⟩ ++ readX8 A ⟨2 * i.val, by omega⟩ := rfl

theorem readX32_eq (A : Arena) (i : Fin 8) :
    readX32 A i = readX8 A ⟨4 * i.val + 3, by omega⟩ ++ (readX8 A ⟨4 * i.val + 2, by omega⟩
      ++ (readX8 A ⟨4 * i.val + 1, by omega⟩ ++ readX8 A ⟨4 * i.val, by omega⟩)) := rfl

theorem readX16_congr {A B : Arena} {i : Fin 16} (h0 : readX8 A ⟨2 * i.val, by omega⟩ = readX8 B ⟨2 * i.val, by omega⟩)
    (h1 : readX8 A ⟨2 * i.val + 1, by omega⟩ = readX8 B ⟨2 * i.val + 1, by omega⟩) : readX16 A i = readX16 B i := by
  rw [readX16_eq, readX16_eq, h0, h1]

@[simp] theorem readX8_writeX8_self (A : Arena) (i : Fin 32) (v : Byte) : readX8 (writeX8 A i v) i = v := by
  simp [readX8_writeX8]

@[simp] theorem readX16_writeX16_self (A : Arena) (i : Fin 16) (v : Half) : readX16 (writeX16 A i v) i = v := by
  rw [readX16_eq, readX8_writeX16, readX8_writeX16]
  simpa using append_extract16 v

theorem readX16_writeX16_of_ne (A : Arena) {i j : Fin 16} (v : Half) (h : j ≠ i) :
    readX16 (writeX16 A i v) j = readX16 A j := by
  have : j.val ≠ i.val := fun e => h (Fin.ext e)
  apply readX16_congr <;> rw [readX8_writeX16, if_neg (by simp; omega), if_neg (by simp; omega)]

/-- Any two-byte register after a write to one. -/
theorem readX16_writeX16 (A : Arena) (i j : Fin 16) (v : Half) :
    readX16 (writeX16 A i v) j = if j = i then v else readX16 A j := by
  by_cases h : j = i
  · simp [h]
  · simp [h, readX16_writeX16_of_ne A v h]

@[simp] theorem readX32_writeX32_self (A : Arena) (i : Fin 8) (v : Word) : readX32 (writeX32 A i v) i = v := by
  rw [readX32_eq]
  simp only [readX8_writeX32]
  simpa using append_extract32 v

@[simp] theorem State.x16_setX16_self (s : State) (i : Fin 16) (v : Half) : (s.setX16 i v).x16 i = v := by
  simp [State.x16, State.setX16, State.withArena]

theorem State.x16_setX16 (s : State) (i j : Fin 16) (v : Half) :
    (s.setX16 i v).x16 j = if j = i then v else s.x16 j := by
  simp [State.x16, State.setX16, State.withArena, readX16_writeX16]

end Sys2Proof.Machine
end

