-- ==== Sys2Proof/Laws/State.lean ====
section
/-! SUPPORT. Laws/State.lean: what each update leaves in each field, one lemma per field per update, true by rfl and
tagged for simp, so that no later proof unfolds a record update; and the reset state's fields. -/

namespace Sys2Proof.Machine

variable (s : State)

@[simp] theorem State.withMem_mem (m : Memory) : (s.withMem m).mem = m := rfl
@[simp] theorem State.withMem_arena (m : Memory) : (s.withMem m).arena = s.arena := rfl
@[simp] theorem State.withMem_pc (m : Memory) : (s.withMem m).pc = s.pc := rfl
@[simp] theorem State.withMem_run (m : Memory) : (s.withMem m).run = s.run := rfl
@[simp] theorem State.withMem_out (m : Memory) : (s.withMem m).out = s.out := rfl
@[simp] theorem State.withMem_cfg (m : Memory) : (s.withMem m).cfg = s.cfg := rfl

@[simp] theorem State.withArena_mem (A : Arena) : (s.withArena A).mem = s.mem := rfl
@[simp] theorem State.withArena_arena (A : Arena) : (s.withArena A).arena = A := rfl
@[simp] theorem State.withArena_pc (A : Arena) : (s.withArena A).pc = s.pc := rfl
@[simp] theorem State.withArena_run (A : Arena) : (s.withArena A).run = s.run := rfl
@[simp] theorem State.withArena_out (A : Arena) : (s.withArena A).out = s.out := rfl
@[simp] theorem State.withArena_cfg (A : Arena) : (s.withArena A).cfg = s.cfg := rfl

@[simp] theorem State.withPc_mem (a : Addr) : (s.withPc a).mem = s.mem := rfl
@[simp] theorem State.withPc_arena (a : Addr) : (s.withPc a).arena = s.arena := rfl
@[simp] theorem State.withPc_pc (a : Addr) : (s.withPc a).pc = a := rfl
@[simp] theorem State.withPc_run (a : Addr) : (s.withPc a).run = s.run := rfl
@[simp] theorem State.withPc_out (a : Addr) : (s.withPc a).out = s.out := rfl
@[simp] theorem State.withPc_cfg (a : Addr) : (s.withPc a).cfg = s.cfg := rfl

@[simp] theorem State.withRun_mem (r : RunStatus) : (s.withRun r).mem = s.mem := rfl
@[simp] theorem State.withRun_arena (r : RunStatus) : (s.withRun r).arena = s.arena := rfl
@[simp] theorem State.withRun_pc (r : RunStatus) : (s.withRun r).pc = s.pc := rfl
@[simp] theorem State.withRun_run (r : RunStatus) : (s.withRun r).run = r := rfl
@[simp] theorem State.withRun_out (r : RunStatus) : (s.withRun r).out = s.out := rfl
@[simp] theorem State.withRun_cfg (r : RunStatus) : (s.withRun r).cfg = s.cfg := rfl

@[simp] theorem State.emit_mem (b : Byte) : (s.emit b).mem = s.mem := rfl
@[simp] theorem State.emit_arena (b : Byte) : (s.emit b).arena = s.arena := rfl
@[simp] theorem State.emit_pc (b : Byte) : (s.emit b).pc = s.pc := rfl
@[simp] theorem State.emit_run (b : Byte) : (s.emit b).run = s.run := rfl
@[simp] theorem State.emit_out (b : Byte) : (s.emit b).out = s.out ++ [b] := rfl
@[simp] theorem State.emit_cfg (b : Byte) : (s.emit b).cfg = s.cfg := rfl

@[simp] theorem State.setX8_mem (i : Fin 32) (v : Byte) : (s.setX8 i v).mem = s.mem := rfl
@[simp] theorem State.setX8_arena (i : Fin 32) (v : Byte) : (s.setX8 i v).arena = writeX8 s.arena i v := rfl
@[simp] theorem State.setX8_pc (i : Fin 32) (v : Byte) : (s.setX8 i v).pc = s.pc := rfl
@[simp] theorem State.setX8_run (i : Fin 32) (v : Byte) : (s.setX8 i v).run = s.run := rfl
@[simp] theorem State.setX8_out (i : Fin 32) (v : Byte) : (s.setX8 i v).out = s.out := rfl
@[simp] theorem State.setX8_cfg (i : Fin 32) (v : Byte) : (s.setX8 i v).cfg = s.cfg := rfl

@[simp] theorem State.setX16_mem (i : Fin 16) (v : Half) : (s.setX16 i v).mem = s.mem := rfl
@[simp] theorem State.setX16_arena (i : Fin 16) (v : Half) : (s.setX16 i v).arena = writeX16 s.arena i v := rfl
@[simp] theorem State.setX16_pc (i : Fin 16) (v : Half) : (s.setX16 i v).pc = s.pc := rfl
@[simp] theorem State.setX16_run (i : Fin 16) (v : Half) : (s.setX16 i v).run = s.run := rfl
@[simp] theorem State.setX16_out (i : Fin 16) (v : Half) : (s.setX16 i v).out = s.out := rfl
@[simp] theorem State.setX16_cfg (i : Fin 16) (v : Half) : (s.setX16 i v).cfg = s.cfg := rfl

@[simp] theorem State.setX32_mem (i : Fin 8) (v : Word) : (s.setX32 i v).mem = s.mem := rfl
@[simp] theorem State.setX32_arena (i : Fin 8) (v : Word) : (s.setX32 i v).arena = writeX32 s.arena i v := rfl
@[simp] theorem State.setX32_pc (i : Fin 8) (v : Word) : (s.setX32 i v).pc = s.pc := rfl
@[simp] theorem State.setX32_run (i : Fin 8) (v : Word) : (s.setX32 i v).run = s.run := rfl
@[simp] theorem State.setX32_out (i : Fin 8) (v : Word) : (s.setX32 i v).out = s.out := rfl
@[simp] theorem State.setX32_cfg (i : Fin 8) (v : Word) : (s.setX32 i v).cfg = s.cfg := rfl

@[simp] theorem State.transferTo_mem (a : Addr) : (s.transferTo a).mem = s.mem := rfl
@[simp] theorem State.transferTo_arena (a : Addr) : (s.transferTo a).arena = s.arena := rfl
@[simp] theorem State.transferTo_pc (a : Addr) : (s.transferTo a).pc = a - 4#16 := rfl
@[simp] theorem State.transferTo_run (a : Addr) : (s.transferTo a).run = s.run := rfl
@[simp] theorem State.transferTo_out (a : Addr) : (s.transferTo a).out = s.out := rfl
@[simp] theorem State.transferTo_cfg (a : Addr) : (s.transferTo a).cfg = s.cfg := rfl

@[simp] theorem State.fetchFault_mem : (s.fetchFault).mem = s.mem := rfl
@[simp] theorem State.fetchFault_arena : (s.fetchFault).arena = s.arena := rfl
@[simp] theorem State.fetchFault_pc : (s.fetchFault).pc = s.pc := rfl
@[simp] theorem State.fetchFault_run : (s.fetchFault).run = .fetchFaulted s.pc := rfl
@[simp] theorem State.fetchFault_out : (s.fetchFault).out = s.out := rfl
@[simp] theorem State.fetchFault_cfg : (s.fetchFault).cfg = s.cfg := rfl

/-! ### Accessors of memory see memory alone -/

section
variable {s t : State}

theorem State.cur_congr (h : t.mem = s.mem) : t.cur = s.cur := by simp [State.cur, h]
theorem State.offset_congr (h : t.mem = s.mem) (p : Byte) : t.offset p = s.offset p := by simp [State.offset, h]
theorem State.legality_congr (h : t.mem = s.mem) (p : Byte) : t.legality p = s.legality p := by simp [State.legality, h]
theorem State.superuser_congr (h : t.mem = s.mem) (p : Byte) : t.superuser p = s.superuser p := by
  simp [State.superuser, State.legality_congr h]
theorem State.readLegal_congr (h : t.mem = s.mem) (a : Addr) (p : Byte) : t.readLegal a p = s.readLegal a p := by
  simp [State.readLegal, State.superuser_congr h, State.legality_congr h]
theorem State.writeLegal_congr (h : t.mem = s.mem) (e a : Addr) (p : Byte) : t.writeLegal e a p = s.writeLegal e a p := by
  simp [State.writeLegal, State.superuser_congr h, State.legality_congr h]

end

/-! ### Reset -/

section
variable (c : Config) (A : Arena) (img : List Byte)

@[simp] theorem State.resetWith_mem : (State.resetWith c A img).mem = resetMemory img := rfl
@[simp] theorem State.resetWith_arena : (State.resetWith c A img).arena = A := rfl
@[simp] theorem State.resetWith_pc : (State.resetWith c A img).pc = 0#16 := rfl
@[simp] theorem State.resetWith_run : (State.resetWith c A img).run = .running := rfl
@[simp] theorem State.resetWith_out : (State.resetWith c A img).out = [] := rfl
@[simp] theorem State.resetWith_cfg : (State.resetWith c A img).cfg = c := rfl

end

end Sys2Proof.Machine
end

