-- ==== Sys2Proof/Laws/Ops.lean ====
section
/-! SUPPORT. Laws/Ops.lean: for each shared operation, once, everything it can do. -/

namespace Sys2Proof.Machine

variable (s : State)

/-! ### Operands -/

theorem view8_eq_some {r : Byte} {i : Fin 32} : view8 r = some i ↔ r.toNat = i.val := by
  unfold view8
  split
  · simp [Fin.ext_iff]
  · have := i.isLt; simp; omega

theorem view16_eq_some {r : Byte} {i : Fin 16} : view16 r = some i ↔ r.toNat = i.val := by
  unfold view16
  split
  · simp [Fin.ext_iff]
  · have := i.isLt; simp; omega

theorem view32_eq_some {r : Byte} {i : Fin 8} : view32 r = some i ↔ r.toNat = i.val := by
  unfold view32
  split
  · simp [Fin.ext_iff]
  · have := i.isLt; simp; omega

/-- A field is inside its view exactly when well-formedness says so (spec/10_state.md R21). -/
theorem view8_isSome (r : Byte) : (view8 r).isSome = validX8 r := by
  unfold view8 validX8
  split
  · simp; omega
  · simp; omega

theorem view16_isSome (r : Byte) : (view16 r).isSome = validX16 r := by
  unfold view16 validX16
  split
  · simp; omega
  · simp; omega

theorem view32_isSome (r : Byte) : (view32 r).isSome = validX32 r := by
  unfold view32 validX32
  split
  · simp; omega
  · simp; omega

theorem withReg_eq_next {α : Type} {i : Instr} {r : Option α} {body : α → State} {t : State} :
    withReg i r body = .next t ↔ ∃ a, r = some a ∧ t = body a := by
  cases r <;> simp [withReg, eq_comm]

theorem withRegs_eq_next {α β : Type} {i : Instr} {r₁ : Option α} {r₂ : Option β} {body : α → β → State} {t : State} :
    withRegs i r₁ r₂ body = .next t ↔ ∃ a b, r₁ = some a ∧ r₂ = some b ∧ t = body a b := by
  cases r₁ <;> cases r₂ <;> simp [withRegs, eq_comm]

theorem withRegs3_eq_next {i : Instr} {d r₁ r₂ : Option (Fin 16)} {body : Fin 16 → Fin 16 → Fin 16 → State} {t : State} :
    withRegs3 i d r₁ r₂ body = .next t ↔ ∃ a b c, d = some a ∧ r₁ = some b ∧ r₂ = some c ∧ t = body a b c := by
  cases d <;> cases r₁ <;> cases r₂ <;> simp [withRegs3, eq_comm]

/-! ### Address arithmetic -/

/-- Adding a signed 8-bit offset is adding `sext_8` mod 2^16 (spec/00_scope.md R10). -/
theorem sext8_toNat (k : Byte) : ((sext8 k).toNat : Int) = k.toInt % 2 ^ 16 := by
  unfold sext8
  rw [← BitVec.toInt_signExtend_of_le (x := k) (w := 8) (v := 16) (by omega), BitVec.toInt_eq_toNat_bmod]
  have := (BitVec.signExtend 16 k).isLt
  rw [Int.bmod_def]
  split <;> omega

/-! ### The trap transfer (spec/60_exceptions.md R160) -/

section
variable (c : Byte) (o : Half)

/-- Every byte after a trap: the five fields of R160, and every other byte as before. -/
theorem State.trapTransfer_read (a : Addr) :
    (s.trapTransfer c o).mem.read a
      = if a = 1120#16 then 0#8 else if a = 1124#16 then c else if a = 1123#16 then (s.pc + o).extractLsb' 8 8
        else if a = 1122#16 then (s.pc + o).extractLsb' 0 8 else if a = 1121#16 then s.cur else s.mem.read a := by
  simp [State.trapTransfer, Memory.read_write, Memory.read_write16]

/-- Every byte outside the trap's fields (1120..1124). -/
theorem State.trapTransfer_frame {a : Addr} (ha : ¬(1120 ≤ a.toNat ∧ a.toNat ≤ 1124)) :
    (s.trapTransfer c o).mem.read a = s.mem.read a := by
  rw [State.trapTransfer_read]
  split_ifs with h h h h h <;> first | rfl | (subst h; exact absurd (by decide) ha)

@[simp] theorem State.trapTransfer_pc : (s.trapTransfer c o).pc = s.handlerPointer - 4#16 := by
  simp [State.trapTransfer, State.handlerPointer, Memory.read16, Memory.read_write, Memory.read_write16]

@[simp] theorem State.trapTransfer_arena : (s.trapTransfer c o).arena = s.arena := rfl
@[simp] theorem State.trapTransfer_run : (s.trapTransfer c o).run = s.run := rfl
@[simp] theorem State.trapTransfer_out : (s.trapTransfer c o).out = s.out := rfl
@[simp] theorem State.trapTransfer_cfg : (s.trapTransfer c o).cfg = s.cfg := rfl

@[simp] theorem State.trapTransfer_cur : (s.trapTransfer c o).cur = 0#8 := by
  simp [State.cur, State.trapTransfer_read]

@[simp] theorem State.trapTransfer_returnProcess : (s.trapTransfer c o).returnProcess = s.cur := by
  simp [State.returnProcess, State.trapTransfer_read]

@[simp] theorem State.trapTransfer_returnAddress : (s.trapTransfer c o).returnAddress = s.pc + o := by
  simpa [State.returnAddress, Memory.read16, State.trapTransfer_read] using append_extract16 (s.pc + o)

@[simp] theorem State.trapTransfer_requestedCode : (s.trapTransfer c o).requestedCode = c := by
  simp [State.requestedCode, State.trapTransfer_read]

@[simp] theorem State.trapTransfer_handlerPointer : (s.trapTransfer c o).handlerPointer = s.handlerPointer := by
  simp [State.handlerPointer, Memory.read16, State.trapTransfer_read]

theorem State.trapTransfer_wf (h : s.mem.wf = true) : (s.trapTransfer c o).mem.wf = true :=
  Memory.wf_write _ _ (Memory.wf_write _ _ (Memory.wf_write16 _ _ (Memory.wf_write _ _ h)))

end

/-! ### The cycle's end (spec/40_cycle.md R112 to R114) -/

/-- Every byte after the poll: the flag is 0, every other byte as before. -/
theorem State.poll_read (a : Addr) : s.poll.mem.read a = if a = 1022#16 then 0#8 else s.mem.read a := by
  unfold State.poll
  split
  · rename_i h
    by_cases ha : a = 1022#16
    · simpa [ha, State.consoleFlag] using h
    · simp [ha]
  · simp [Memory.read_write]

/-- What the poll emits: the data byte when the flag is nonzero, else nothing. -/
theorem State.poll_out : s.poll.out = if s.consoleFlag = 0#8 then s.out else s.out ++ [s.consoleData] := by
  unfold State.poll
  split <;> simp_all

@[simp] theorem State.poll_arena : s.poll.arena = s.arena := by unfold State.poll; split <;> rfl
@[simp] theorem State.poll_pc : s.poll.pc = s.pc := by unfold State.poll; split <;> rfl
@[simp] theorem State.poll_run : s.poll.run = s.run := by unfold State.poll; split <;> rfl
@[simp] theorem State.poll_cfg : s.poll.cfg = s.cfg := by unfold State.poll; split <;> rfl

theorem State.poll_wf (h : s.mem.wf = true) : s.poll.mem.wf = true := by
  unfold State.poll
  split
  · exact h
  · exact Memory.wf_write _ _ h

section
variable (op : Byte)

@[simp] theorem State.endCycle_mem : (s.endCycle op).mem = s.poll.mem := by unfold State.endCycle; split <;> rfl
@[simp] theorem State.endCycle_arena : (s.endCycle op).arena = s.arena := by unfold State.endCycle; split <;> simp
@[simp] theorem State.endCycle_pc : (s.endCycle op).pc = s.pc + 4#16 := by unfold State.endCycle; split <;> simp
@[simp] theorem State.endCycle_out : (s.endCycle op).out = s.poll.out := by unfold State.endCycle; split <;> rfl
@[simp] theorem State.endCycle_cfg : (s.endCycle op).cfg = s.cfg := by unfold State.endCycle; split <;> simp

theorem State.endCycle_run : (s.endCycle op).run = if op = 0#8 then .halted else s.run := by
  unfold State.endCycle
  split <;> simp

end

/-! ### Checked transfers and accesses (spec/20_memory.md R65) -/

theorem State.checkedTransfer_eq (t : Addr) :
    (s.readLegal t s.cur = true ∧ s.checkedTransfer t = s.transferTo t) ∨
    (s.readLegal t s.cur = false ∧ s.checkedTransfer t = s.memProtTrap) := by
  unfold State.checkedTransfer
  cases h : s.readLegal t s.cur <;> simp

theorem State.checkedLoad_eq (b : Fin 16) (k : Byte) (f : Addr → State) :
    (s.readLegal (s.effAddr b k) s.cur = true ∧ s.checkedLoad b k f = f (s.effAddr b k)) ∨
    (s.readLegal (s.effAddr b k) s.cur = false ∧ s.checkedLoad b k f = s.memProtTrap) := by
  unfold State.checkedLoad
  cases h : s.readLegal (s.effAddr b k) s.cur <;> simp

theorem State.checkedStore_eq (b : Fin 16) (k : Byte) (f : Addr → Memory) :
    (s.writeLegal (s.effAddr b k) (s.preAddr b k) s.cur = true ∧ s.checkedStore b k f = s.withMem (f (s.effAddr b k))) ∨
    (s.writeLegal (s.effAddr b k) (s.preAddr b k) s.cur = false ∧ s.checkedStore b k f = s.memProtTrap) := by
  unfold State.checkedStore
  cases h : s.writeLegal (s.effAddr b k) (s.preAddr b k) s.cur <;> simp

end Sys2Proof.Machine
end

