-- ==== Sys2Proof/Laws/Exec.lean ====
section
/-! SUPPORT. Laws/Exec.lean: everything an execute phase can do when it answers a next state, once: it works on registers
and pc, or it stores, or it traps (after at most a register write). Invariants are derived from this, not by unfolding
`exec`. -/

namespace Sys2Proof.Machine

/-! ### exec's arms -/

section
variable (s : State)

@[simp] theorem exec_hlt : exec (.hlt) s = execHlt s := rfl
@[simp] theorem exec_lim (r : Byte) (imm : Half) : exec (.lim r imm) s = execLim r imm s := rfl
@[simp] theorem exec_l08 (d b k : Byte) : exec (.l08 d b k) s = execL08 d b k s := rfl
@[simp] theorem exec_l16 (d b k : Byte) : exec (.l16 d b k) s = execL16 d b k s := rfl
@[simp] theorem exec_l32 (d b k : Byte) : exec (.l32 d b k) s = execL32 d b k s := rfl
@[simp] theorem exec_s08 (r b k : Byte) : exec (.s08 r b k) s = execS08 r b k s := rfl
@[simp] theorem exec_s16 (r b k : Byte) : exec (.s16 r b k) s = execS16 r b k s := rfl
@[simp] theorem exec_s32 (r b k : Byte) : exec (.s32 r b k) s = execS32 r b k s := rfl
@[simp] theorem exec_jal (d b k : Byte) : exec (.jal d b k) s = execJal d b k s := rfl
@[simp] theorem exec_beq (r1 r2 k : Byte) : exec (.beq r1 r2 k) s = execBeq r1 r2 k s := rfl
@[simp] theorem exec_bne (r1 r2 k : Byte) : exec (.bne r1 r2 k) s = execBne r1 r2 k s := rfl
@[simp] theorem exec_blt (r1 r2 k : Byte) : exec (.blt r1 r2 k) s = execBlt r1 r2 k s := rfl
@[simp] theorem exec_bgt (r1 r2 k : Byte) : exec (.bgt r1 r2 k) s = execBgt r1 r2 k s := rfl
@[simp] theorem exec_and (d r1 r2 : Byte) : exec (.and d r1 r2) s = execAnd d r1 r2 s := rfl
@[simp] theorem exec_eth (d r1 r2 : Byte) : exec (.eth d r1 r2) s = execEth d r1 r2 s := rfl
@[simp] theorem exec_xor (d r1 r2 : Byte) : exec (.xor d r1 r2) s = execXor d r1 r2 s := rfl
@[simp] theorem exec_nor (d r1 r2 : Byte) : exec (.nor d r1 r2) s = execNor d r1 r2 s := rfl
@[simp] theorem exec_add (d r1 r2 : Byte) : exec (.add d r1 r2) s = execAdd d r1 r2 s := rfl
@[simp] theorem exec_adc (d r1 r2 : Byte) : exec (.adc d r1 r2) s = execAdc d r1 r2 s := rfl
@[simp] theorem exec_shl (d r1 r2 : Byte) : exec (.shl d r1 r2) s = execShl d r1 r2 s := rfl
@[simp] theorem exec_shr (d r1 r2 : Byte) : exec (.shr d r1 r2) s = execShr d r1 r2 s := rfl
@[simp] theorem exec_int (code off : Byte) : exec (.int code off) s = execInt code off s := rfl
@[simp] theorem exec_nop : exec (.nop) s = execNop s := rfl

end

/-- What a store of any width leaves in memory. -/
def StoredAt (m : Memory) (ea : Addr) (m' : Memory) : Prop :=
  (∃ v, m' = m.write ea v) ∨ (∃ v, m' = m.write16 ea v) ∨ (∃ v, m' = m.write32 ea v)

/-- The effects an execute phase can have. -/
inductive Effect (s : State) : State → Prop where
  /-- Registers and pc only. -/
  | quiet (A : Arena) (a : Addr) : Effect s ((s.withArena A).withPc a)
  /-- A legal store. -/
  | store (ea pa : Addr) (m : Memory) (legal : s.writeLegal ea pa s.cur = true) (h : StoredAt s.mem ea m) :
      Effect s (s.withMem m)
  /-- A trap, after a link write at most. -/
  | trap (A : Arena) (c : Byte) (o : Half) : Effect s ((s.withArena A).trapTransfer c o)

theorem Effect.same (s : State) : Effect s s := .quiet s.arena s.pc

theorem Effect.registers (s : State) (A : Arena) : Effect s (s.withArena A) := .quiet A s.pc

theorem Effect.checkedTransfer (s : State) (A : Arena) (t : Addr) : Effect s ((s.withArena A).checkedTransfer t) := by
  rcases (s.withArena A).checkedTransfer_eq t with ⟨-, h⟩ | ⟨-, h⟩ <;> rw [h]
  · exact .quiet _ _
  · exact .trap _ _ _

theorem Effect.checkedLoad (s : State) (b : Fin 16) (k : Byte) (f : Addr → Arena) :
    Effect s (s.checkedLoad b k fun ea => s.withArena (f ea)) := by
  rcases s.checkedLoad_eq b k (fun ea => s.withArena (f ea)) with ⟨-, h⟩ | ⟨-, h⟩ <;> rw [h]
  · exact .registers s _
  · exact .trap s.arena _ _

theorem Effect.checkedStore (s : State) (b : Fin 16) (k : Byte) (f : Addr → Memory)
    (hf : ∀ ea, StoredAt s.mem ea (f ea)) : Effect s (s.checkedStore b k f) := by
  rcases s.checkedStore_eq b k f with ⟨hl, h⟩ | ⟨-, h⟩ <;> rw [h]
  · exact .store _ _ _ hl (hf _)
  · exact .trap s.arena _ _

theorem alu_effect {i : Instr} {d r₁ r₂ : Byte} {f : Half → Half → Half} {s t : State}
    (h : alu i d r₁ r₂ f s = .next t) : Effect s t := by
  obtain ⟨a, b, c, -, -, -, rfl⟩ := withRegs3_eq_next.mp h
  exact .registers s _

theorem branch_effect {i : Instr} {r₁ r₂ k : Byte} {cond : Half → Half → Bool} {s t : State}
    (h : branch i r₁ r₂ k cond s = .next t) : Effect s t := by
  obtain ⟨a, b, -, -, rfl⟩ := withRegs_eq_next.mp h
  split
  · exact Effect.checkedTransfer s s.arena _
  · exact .same s

/-- Everything an execute phase can do. -/
theorem exec_effect {i : Instr} {s t : State} (h : exec i s = .next t) : Effect s t := by
  cases i with
  | hlt =>
    rw [exec_hlt] at h
    cases h
    exact .same s
  | nop =>
    rw [exec_nop] at h
    cases h
    exact .same s
  | lim r imm =>
    rw [exec_lim] at h
    obtain ⟨a, -, rfl⟩ := withReg_eq_next.mp h
    exact .registers s _
  | l08 d b k =>
    rw [exec_l08] at h
    obtain ⟨d, b, -, -, rfl⟩ := withRegs_eq_next.mp h
    exact Effect.checkedLoad s b k fun ea => writeX8 s.arena d (s.mem.read ea)
  | l16 d b k =>
    rw [exec_l16] at h
    obtain ⟨d, b, -, -, rfl⟩ := withRegs_eq_next.mp h
    exact Effect.checkedLoad s b k fun ea => writeX16 s.arena d (s.mem.read16 ea)
  | l32 a1 a2 k =>
    rw [exec_l32] at h
    obtain ⟨d, b, -, -, rfl⟩ := withRegs_eq_next.mp h
    exact Effect.checkedLoad s b k fun ea => writeX32 s.arena d (s.mem.read32 ea)
  | s08 r b k =>
    rw [exec_s08] at h
    obtain ⟨r, b, -, -, rfl⟩ := withRegs_eq_next.mp h
    exact Effect.checkedStore s b k _ fun ea => .inl ⟨_, rfl⟩
  | s16 r b k =>
    rw [exec_s16] at h
    obtain ⟨r, b, -, -, rfl⟩ := withRegs_eq_next.mp h
    exact Effect.checkedStore s b k _ fun ea => .inr (.inl ⟨_, rfl⟩)
  | s32 r b k =>
    rw [exec_s32] at h
    obtain ⟨r, b, -, -, rfl⟩ := withRegs_eq_next.mp h
    exact Effect.checkedStore s b k _ fun ea => .inr (.inr ⟨_, rfl⟩)
  | jal d b k =>
    rw [exec_jal] at h
    obtain ⟨d, b, -, -, rfl⟩ := withRegs_eq_next.mp h
    exact Effect.checkedTransfer s (writeX16 s.arena d (s.link k)) _
  | beq r₁ r₂ k =>
    rw [exec_beq] at h
    exact branch_effect (i := .beq r₁ r₂ k) h
  | bne r₁ r₂ k =>
    rw [exec_bne] at h
    exact branch_effect (i := .bne r₁ r₂ k) h
  | blt r₁ r₂ k =>
    rw [exec_blt] at h
    exact branch_effect (i := .blt r₁ r₂ k) h
  | bgt r₁ r₂ k =>
    rw [exec_bgt] at h
    exact branch_effect (i := .bgt r₁ r₂ k) h
  | and d r₁ r₂ =>
    rw [exec_and] at h
    exact alu_effect (i := .and d r₁ r₂) h
  | eth d r₁ r₂ =>
    rw [exec_eth] at h
    exact alu_effect (i := .eth d r₁ r₂) h
  | xor d r₁ r₂ =>
    rw [exec_xor] at h
    exact alu_effect (i := .xor d r₁ r₂) h
  | nor d r₁ r₂ =>
    rw [exec_nor] at h
    exact alu_effect (i := .nor d r₁ r₂) h
  | add d r₁ r₂ =>
    rw [exec_add] at h
    exact alu_effect (i := .add d r₁ r₂) h
  | adc d r₁ r₂ =>
    rw [exec_adc] at h
    exact alu_effect (i := .adc d r₁ r₂) h
  | shl d r₁ r₂ =>
    rw [exec_shl] at h
    exact alu_effect (i := .shl d r₁ r₂) h
  | shr d r₁ r₂ =>
    rw [exec_shr] at h
    exact alu_effect (i := .shr d r₁ r₂) h
  | int c f =>
    rw [exec_int] at h
    cases h
    exact .trap s.arena _ _

/-! ### What every effect leaves -/

theorem StoredAt.wf {m m' : Memory} {ea : Addr} (h : StoredAt m ea m') (hm : m.wf = true) : m'.wf = true := by
  rcases h with ⟨v, rfl⟩ | ⟨v, rfl⟩ | ⟨v, rfl⟩
  · exact Memory.wf_write _ _ hm
  · exact Memory.wf_write16 _ _ hm
  · exact Memory.wf_write32 _ _ hm

/-- A store of at most four bytes leaves every other byte as it was. -/
theorem StoredAt.read {m m' : Memory} {ea x : Addr} (h : StoredAt m ea m') (h0 : x ≠ ea) (h1 : x ≠ ea + 1#16)
    (h2 : x ≠ ea + 2#16) (h3 : x ≠ ea + 3#16) : m'.read x = m.read x := by
  rcases h with ⟨v, rfl⟩ | ⟨v, rfl⟩ | ⟨v, rfl⟩
  · simp [Memory.read_write, h0]
  · simp [Memory.read_write16, h0, h1]
  · simp [Memory.read_write32, h0, h1, h2, h3]

theorem Effect.wf {s t : State} (h : Effect s t) (hm : s.mem.wf = true) : t.mem.wf = true := by
  cases h with
  | quiet A a => exact hm
  | store ea pa m _ h => exact h.wf hm
  | trap A c o => exact State.trapTransfer_wf _ _ _ hm

theorem Effect.run {s t : State} (h : Effect s t) : t.run = s.run := by cases h <;> simp
theorem Effect.out {s t : State} (h : Effect s t) : t.out = s.out := by cases h <;> simp
theorem Effect.cfg {s t : State} (h : Effect s t) : t.cfg = s.cfg := by cases h <;> simp

end Sys2Proof.Machine
end

