-- ==== Sys2Proof/Laws/PerInstr.lean ====
section
/-! SUPPORT. Laws/PerInstr.lean: statements about every instruction as syntax, one lemma per constructor. -/

namespace Sys2Proof.Laws

/-- The encoder writes the opcode of the instruction's own row, under every assignment (spec/30_encoding.md R82, R98). -/
def EncodesOwnRow.Statement (i : Instr) : Prop := ∀ c : Config, (encode c i).op = opcodeOf c i.mnemonic

theorem EncodesOwnRow.hlt : EncodesOwnRow.Statement (.hlt) := fun _ => rfl
theorem EncodesOwnRow.lim (r : Byte) (imm : Half) : EncodesOwnRow.Statement (.lim r imm) := fun _ => rfl
theorem EncodesOwnRow.l08 (d b k : Byte) : EncodesOwnRow.Statement (.l08 d b k) := fun _ => rfl
theorem EncodesOwnRow.l16 (d b k : Byte) : EncodesOwnRow.Statement (.l16 d b k) := fun _ => rfl
theorem EncodesOwnRow.l32 (d b k : Byte) : EncodesOwnRow.Statement (.l32 d b k) := fun _ => rfl
theorem EncodesOwnRow.s08 (r b k : Byte) : EncodesOwnRow.Statement (.s08 r b k) := fun _ => rfl
theorem EncodesOwnRow.s16 (r b k : Byte) : EncodesOwnRow.Statement (.s16 r b k) := fun _ => rfl
theorem EncodesOwnRow.s32 (r b k : Byte) : EncodesOwnRow.Statement (.s32 r b k) := fun _ => rfl
theorem EncodesOwnRow.jal (d b k : Byte) : EncodesOwnRow.Statement (.jal d b k) := fun _ => rfl
theorem EncodesOwnRow.beq (r1 r2 k : Byte) : EncodesOwnRow.Statement (.beq r1 r2 k) := fun _ => rfl
theorem EncodesOwnRow.bne (r1 r2 k : Byte) : EncodesOwnRow.Statement (.bne r1 r2 k) := fun _ => rfl
theorem EncodesOwnRow.blt (r1 r2 k : Byte) : EncodesOwnRow.Statement (.blt r1 r2 k) := fun _ => rfl
theorem EncodesOwnRow.bgt (r1 r2 k : Byte) : EncodesOwnRow.Statement (.bgt r1 r2 k) := fun _ => rfl
theorem EncodesOwnRow.and (d r1 r2 : Byte) : EncodesOwnRow.Statement (.and d r1 r2) := fun _ => rfl
theorem EncodesOwnRow.eth (d r1 r2 : Byte) : EncodesOwnRow.Statement (.eth d r1 r2) := fun _ => rfl
theorem EncodesOwnRow.xor (d r1 r2 : Byte) : EncodesOwnRow.Statement (.xor d r1 r2) := fun _ => rfl
theorem EncodesOwnRow.nor (d r1 r2 : Byte) : EncodesOwnRow.Statement (.nor d r1 r2) := fun _ => rfl
theorem EncodesOwnRow.add (d r1 r2 : Byte) : EncodesOwnRow.Statement (.add d r1 r2) := fun _ => rfl
theorem EncodesOwnRow.adc (d r1 r2 : Byte) : EncodesOwnRow.Statement (.adc d r1 r2) := fun _ => rfl
theorem EncodesOwnRow.shl (d r1 r2 : Byte) : EncodesOwnRow.Statement (.shl d r1 r2) := fun _ => rfl
theorem EncodesOwnRow.shr (d r1 r2 : Byte) : EncodesOwnRow.Statement (.shr d r1 r2) := fun _ => rfl
theorem EncodesOwnRow.int (code off : Byte) : EncodesOwnRow.Statement (.int code off) := fun _ => rfl
theorem EncodesOwnRow.nop : EncodesOwnRow.Statement (.nop) := fun _ => rfl

end Sys2Proof.Laws
end

