-- ==== Sys2Proof/Laws/Step.lean ====
section
/-! SUPPORT. Laws/Step.lean: everything a step can do, once, and the step on each kind of state. -/

namespace Sys2Proof.Machine

/-- The three ways a step answers a next state: no cycle runs, the fetch faults, or the cycle runs
(spec/40_cycle.md R106). -/
theorem step_next_cases {s t : State} (h : step s = .next t) :
    (s.run ≠ .running ∧ t = s) ∨
    (s.run = .running ∧ s.readLegal s.pc s.cur = false ∧ t = s.fetchFault) ∨
    (s.run = .running ∧ s.readLegal s.pc s.cur = true ∧
      ∃ u, exec (decode s.cfg s.fetch) s = .next u ∧ t = u.endCycle s.fetch.op) := by
  unfold step at h
  split at h
  · rename_i hr
    split at h
    · rename_i hl
      split at h
      · rename_i u hu
        cases h
        exact .inr (.inr ⟨hr, hl, u, hu, rfl⟩)
      · cases h
      · cases h
    · rename_i hl
      cases h
      exact .inr (.inl ⟨hr, by simpa using hl, rfl⟩)
  · rename_i hr
    cases h
    exact .inl ⟨by simp [hr], rfl⟩
  · rename_i hr
    cases h
    exact .inl ⟨by simp [hr], rfl⟩

/-- The same with the execute phase's effect in place of `exec`. -/
theorem step_effect {s t : State} (h : step s = .next t) :
    (s.run ≠ .running ∧ t = s) ∨
    (s.run = .running ∧ s.readLegal s.pc s.cur = false ∧ t = s.fetchFault) ∨
    (s.run = .running ∧ s.readLegal s.pc s.cur = true ∧ ∃ u, Effect s u ∧ t = u.endCycle s.fetch.op) := by
  rcases step_next_cases h with h | h | ⟨hr, hl, u, hu, ht⟩
  · exact .inl h
  · exact .inr (.inl h)
  · exact .inr (.inr ⟨hr, hl, u, exec_effect hu, ht⟩)

/-- One more step of a run of the machine. -/
theorem run_succ (k : Nat) (s : State) :
    Host.Core.run Sys2Proof.core (k + 1) s =
      match step s with
      | .next u => Host.Core.run Sys2Proof.core k u
      | .fault f => .fault f
      | .refused r => .refused r := by
  refine (Host.Core.run.eq_2 Sys2Proof.core s k).trans ?_
  generalize hx : Sys2Proof.core.step s = x
  have hs : step s = x := hx
  rw [hs]
  cases x <;> rfl

/-- A packaged induction: what holds of a state and is kept by every step holds after any number of steps. -/
theorem run_induction {P : State → Prop} (hstep : ∀ s t, P s → step s = .next t → P t) :
    ∀ (k : Nat) {s t : State}, P s → Host.Core.run Sys2Proof.core k s = .next t → P t
  | 0, s, t, hs, h => by
    cases h
    exact hs
  | k + 1, s, t, hs, h => by
    rw [run_succ] at h
    split at h
    · rename_i u hu
      exact run_induction hstep k (hstep s u hs hu) h
    · cases h
    · cases h

/-! ### Runs (spec/70_reset_and_hazards.md R203, R204) -/

theorem runFuel_halted {s : State} (h : s.run = .halted) (n : Nat) : runFuel n s = ⟨.halted, s⟩ := by
  cases n <;> simp [runFuel, h]

theorem runFuel_fetchFaulted {s : State} {a : Addr} (h : s.run = .fetchFaulted a) (n : Nat) :
    runFuel n s = ⟨.fetchFaulted a, s⟩ := by
  cases n <;> simp [runFuel, h]

theorem runFuel_zero {s : State} (h : s.run = .running) : runFuel 0 s = ⟨.outOfFuel, s⟩ := by simp [runFuel, h]

/-- One more cycle of a budgeted run. -/
theorem runFuel_succ {s : State} (h : s.run = .running) (n : Nat) :
    runFuel (n + 1) s =
      match step s with
      | .next t => runFuel n t
      | .fault f => ⟨.undefined f, s⟩
      | .refused r => ⟨.refused r, s⟩ := by
  cases hs : step s <;> simp [runFuel, h, hs]

/-- A running state that its own step answers has no end. -/
theorem runsForever_of_fixed {s : State} (h : s.run = .running) (hs : step s = .next s) : s.runsForever := by
  intro n
  induction n with
  | zero => rw [runFuel_zero h]
  | succ n ih =>
    rw [runFuel_succ h, hs]
    exact ih

@[simp] theorem runsTo_some (n : Nat) (s : State) (r : RunResult) : runsTo (some n) s r ↔ runFuel n s = r := Iff.rfl
@[simp] theorem runsTo_none (s : State) (r : RunResult) : runsTo none s r ↔ EndsWith s r := Iff.rfl

end Sys2Proof.Machine
end

