-- ==== Sys2Proof/Tests/Slice0.lean ====
section
/-! SUPPORT. Tests/Slice0.lean: checks of the model on fixed values. Expected results come from the spec's encodings
(spec/30_encoding.md) and vectors (spec/95_test_vectors.md, named S<n>, V<n>, P<n>), never from the model. -/

namespace Sys2Proof.Machine.Tests

/-! ### Helpers -/

/-- Reset, with some bytes of memory, some two-byte registers and a pc. -/
def st (mem : List (Addr × Byte)) (regs : List (Fin 16 × Half)) (pc : Addr) : State :=
  let s := State.reset
  { s with
    mem := mem.foldl (fun m c => m.write c.1 c.2) s.mem
    arena := regs.foldl (fun A r => writeX16 A r.1 r.2) s.arena
    pc := pc }

/-- The spec's "P1seg0": process 1 current, offset 0, segment 0 only. -/
def p1seg0 : List (Addr × Byte) := [(1120, 1), (1032, 1)]

/-- A handler pointer of 64. -/
def h64 : List (Addr × Byte) := [(1125, 64)]

/-- The outcome is a next state with a property. -/
def after (o : Result) (p : State → Bool) : Bool :=
  match o with
  | .next t => p t
  | _ => false

/-- "traps (p, R, c)" of spec/95_test_vectors.md, with the handler at h. -/
def traps (p : Byte) (r : Addr) (c : Byte) (h : Addr) (t : State) : Bool :=
  t.returnProcess == p && t.returnAddress == r && t.requestedCode == c && t.cur == 0 && t.pc == h

/-! ### Well-formedness refuses an ill-formed term, one for each check (R21, R23) -/

theorem test_wf_x8_dest : (Instr.l08 32 0 0).wellFormed .reference = false := by decide
theorem test_wf_x8_src : (Instr.s08 32 0 0).wellFormed .reference = false := by decide
theorem test_wf_x16_lim : (Instr.lim 16 0).wellFormed .reference = false := by decide
theorem test_wf_x16_base : (Instr.l08 31 16 0).wellFormed .reference = false := by decide
theorem test_wf_x16_dest : (Instr.l16 16 0 0).wellFormed .reference = false := by decide
theorem test_wf_x16_src : (Instr.s16 16 0 0).wellFormed .reference = false := by decide
theorem test_wf_x32_dest : (Instr.l32 8 0 0).wellFormed .reference = false := by decide
theorem test_wf_x32_addr_first : (Instr.l32 8 7 0).wellFormed ⟨Config.reference.opcodes, .addrFirst⟩ = true := by decide
theorem test_wf_x32_addr_first_dest : (Instr.l32 7 8 0).wellFormed ⟨Config.reference.opcodes, .addrFirst⟩ = false := by
  decide
theorem test_wf_x32_src : (Instr.s32 8 0 0).wellFormed .reference = false := by decide
theorem test_wf_jal : (Instr.jal 16 0 0).wellFormed .reference = false := by decide
theorem test_wf_branch : (Instr.beq 0 16 0).wellFormed .reference = false := by decide
theorem test_wf_alu : (Instr.add 2 0 20).wellFormed .reference = false := by decide
theorem test_wf_boundary : (Instr.add 15 15 15).wellFormed .reference = true := by decide

/-! ### The parameters -/

theorem test_reference_wf : Config.reference.wf = true := by decide
theorem test_config_repeat_refused :
    (Config.mk (Vector.replicate 21 .add) .destFirst).wf = false := by decide

/-! ### Decoding: one word a row, written out from the encodings of R78 and R83 (a3 a2 a1 op) -/

theorem test_decode_hlt : decodeTableWord 32 0xFFFFFF00 = some .hlt := by decide
theorem test_decode_lim : decodeTableWord 32 0x03FE0001 = some (.lim 0 1022) := by decide
theorem test_decode_l08 : decodeTableWord 32 0x00010402 = some (.l08 4 1 0) := by decide
theorem test_decode_l16 : decodeTableWord 32 0x00010203 = some (.l16 2 1 0) := by decide
theorem test_decode_l32 : decodeTableWord 32 0x00020104 = some (.l32 1 2 0) := by decide
theorem test_decode_s08 : decodeTableWord 32 0x00000205 = some (.s08 2 0 0) := by decide
theorem test_decode_s16 : decodeTableWord 32 0x00000106 = some (.s16 1 0 0) := by decide
theorem test_decode_s32 : decodeTableWord 32 0xFC020007 = some (.s32 0 2 0xFC) := by decide
theorem test_decode_jal : decodeTableWord 32 0x00030608 = some (.jal 6 3 0) := by decide
theorem test_decode_beq : decodeTableWord 32 0xF8010009 = some (.beq 0 1 0xF8) := by decide
theorem test_decode_bne : decodeTableWord 32 0xF801000A = some (.bne 0 1 0xF8) := by decide
theorem test_decode_blt : decodeTableWord 32 0x0801000B = some (.blt 0 1 8) := by decide
theorem test_decode_bgt : decodeTableWord 32 0x0801000C = some (.bgt 0 1 8) := by decide
theorem test_decode_and : decodeTableWord 32 0x0201000D = some (.and 0 1 2) := by decide
theorem test_decode_eth : decodeTableWord 32 0x0404090E = some (.eth 9 4 4) := by decide
theorem test_decode_xor : decodeTableWord 32 0x0505050F = some (.xor 5 5 5) := by decide
theorem test_decode_nor : decodeTableWord 32 0x02020310 = some (.nor 3 2 2) := by decide
theorem test_decode_add : decodeTableWord 32 0x01000211 = some (.add 2 0 1) := by decide
theorem test_decode_adc : decodeTableWord 32 0x02010012 = some (.adc 0 1 2) := by decide
theorem test_decode_shl : decodeTableWord 32 0x02010013 = some (.shl 0 1 2) := by decide
theorem test_decode_shr : decodeTableWord 32 0x02010014 = some (.shr 0 1 2) := by decide
theorem test_decode_int : decodeTableWord 32 0x55080515 = some (.int 5 8) := by decide
theorem test_decode_nop : decodeTableWord 32 0x00000040 = some .nop := by decide
theorem test_decode_undefined : decodeTableWord 32 0x563412FF = some .nop := by decide
theorem test_decode_short_row : decodeTableWord 8 0xFFFFFF16 = some .nop := by decide
theorem test_decode_truncated : decodeBytes .reference [1, 2, 3] = .error (.truncated 3) := by rfl
theorem test_encode_add : encode .reference (.add 2 0 1) = ⟨0x11, 2, 0, 1⟩ := by decide
theorem test_encode_lim : encode .reference (.lim 0 1022) = ⟨1, 0, 0xFE, 3⟩ := by decide

/-! ### The cycle -/

/-- V1: the empty image. -/
theorem test_reset_halts : after (step .reset) (fun t => t.pc == 4 && t.run == .halted && t.out == []) = true := by
  decide

/-- V4: nonzero ignored fields. -/
theorem test_hlt : after (step ((st [] [] 12).withFetchWord 32 0xFFFFFF00))
    (fun t => t.pc == 16 && t.run == .halted) = true := by decide

/-- V3. -/
theorem test_undefined_opcode : after (step ((st [] [] 20).withFetchWord 32 0x563412FF))
    (fun t => t.pc == 24 && t.run == .running && t.arena == State.reset.arena) = true := by decide

/-- V5: the image set the console flag. -/
theorem test_poll : after (step (st [(1022, 1), (1023, 0x41)] [] 0))
    (fun t => t.out == [0x41] && t.mem.read 1022 == 0 && t.pc == 4 && t.run == .halted) = true := by decide

/-- V6: pc wraps. -/
theorem test_pc_wraps : after (step ((st [] [] 65532).withFetchWord 32 0x40)) (fun t => t.pc == 0) = true := by decide

/-- V7: a fetch fault changes nothing else. -/
theorem test_fetch_fault : step (st [(1120, 1), (1022, 1)] [] 12)
    = .next { st [(1120, 1), (1022, 1)] [] 12 with run := .fetchFaulted 12 } := by rfl

/-- V8: segment 31 needs the superuser bit. -/
theorem test_segment_31 : after (step (st [(1120, 1), (1032, 0xFF), (1033, 0xFF), (1034, 0xFF), (1035, 0x7F)] [] 63488))
    (fun t => t.run == .fetchFaulted 63488) = true := by decide

/-- V9: `lim r16 d1`. -/
theorem test_out_of_view : step ((st [] [] 0).withFetchWord 32 0x00011001) = .fault (.registerIndex (.lim 16 1)) := by rfl

/-! ### Immediate, loads and stores -/

/-- V13. -/
theorem test_lim : after (step ((st [] [(0, 0x3344), (1, 0x1122)] 0).withFetchWord 32 0xFFFF0101))
    (fun t => t.x32 0 == 0xFFFF3344 && t.x16 2 == 0 && t.pc == 4) = true := by decide

/-- V25: translation by Off(2) = 0x1000, segment 2. -/
theorem test_l08_translated : after (exec (.l08 4 1 0)
      (st [(1120, 2), (1037, 0x10), (1038, 4), (0x1010, 0x99)] [(1, 0x10)] 40))
    (fun t => t.x8 4 == 0x99 && t.x8 5 == 0) = true := by decide

/-- V37: the base is overwritten after use. -/
theorem test_l08_base : after (exec (.l08 2 1 0) (st [(100, 0x7F)] [(1, 100)] 0)) (fun t => t.x16 1 == 0x7F) = true := by
  decide

/-- V21: a halfword at 65535 wraps. -/
theorem test_l16_wraps : after (exec (.l16 2 1 0) (st [(65535, 0x34), (0, 0x12)] [(1, 65535)] 0))
    (fun t => t.x16 2 == 0x1234) = true := by decide

/-- V26: an illegal load traps and writes no register. -/
theorem test_l16_traps : after (step ((st (p1seg0 ++ h64) [(1, 2048), (2, 0x5555)] 40).withFetchWord 32 0x00010203))
    (fun t => traps 1 44 0 64 t && t.x16 2 == 0x5555) = true := by decide

/-- P7, `destFirst`. -/
theorem test_l32_dest_first : after (exec (.l32 1 2 0)
      (st [(100, 0x44), (101, 0x33), (102, 0x22), (103, 0x11)] [(2, 100), (1, 104)] 8))
    (fun t => t.x32 1 == 0x11223344 && t.x16 1 == 104) = true := by decide

/-- P7, `addrFirst`. -/
theorem test_l32_addr_first : after (exec (.l32 1 2 0)
      { st [(104, 0xDD), (105, 0xCC), (106, 0xBB), (107, 0xAA)] [(2, 100), (1, 104)] 8 with
        cfg := ⟨Config.reference.opcodes, .addrFirst⟩ })
    (fun t => t.x32 2 == 0xAABBCCDD && t.x16 1 == 104 && t.x16 2 == 100) = true := by decide

/-- V31: the tail is judged on the pre-translation address. -/
theorem test_s08_tail : after (exec (.s08 2 0 0)
      (st [(1120, 1), (1031, 1), (1032, 2), (1125, 4)] [(0, 0x07F0), (1, 0xAB)] 40))
    (fun t => t.returnAddress == 44 && t.mem.read 0x08F0 == 0 && t.pc == 0) = true := by decide

/-- V32: a store into the EA's tail that the test on PA lets through. -/
theorem test_s08_ea_tail : after (exec (.s08 2 0 0) (st [(1120, 1), (1030, 0x10), (1032, 1)] [(0, 0x07DF), (1, 0x77)] 0))
    (fun t => t.mem.read 2031 == 0x77) = true := by decide

/-- V29: only the first byte is checked. -/
theorem test_s16_crosses : after (exec (.s16 1 0 0) (st p1seg0 [(0, 2015), (1, 0xBEEF)] 40))
    (fun t => t.mem.read 2015 == 0xEF && t.mem.read 2016 == 0xBE) = true := by decide

/-- V33: one `s16` prints one character. -/
theorem test_s16_prints : after (step ((st [] [(0, 1022), (1, 0x4801)] 0).withFetchWord 32 0x00000106))
    (fun t => t.out == [0x48] && t.mem.read 1022 == 0 && t.mem.read 1023 == 0x48) = true := by decide

/-- V34. -/
theorem test_s32 : after (exec (.s32 0 2 0xFC) (st [] [(2, 300), (0, 0x3344), (1, 0x1122)] 0))
    (fun t => t.mem.read32 296 == 0x11223344 && t.mem.read 296 == 0x44 && t.mem.read 300 == 0) = true := by decide

/-! ### Arithmetic and logic: `op r0 r1 r2` with x16[1] = a, x16[2] = b -/

/-- The result of an instruction on registers 1 and 2. -/
def aluResult (i : Instr) (a b r : Half) : Bool := after (exec i (st [] [(1, a), (2, b)] 0)) fun t => t.x16 0 == r

theorem test_and : aluResult (.and 0 1 2) 0xF0F0 0xFF00 0xF000 = true := by decide
theorem test_eth : aluResult (.eth 0 1 2) 0xF0F0 0x0F00 0xFFF0 = true := by decide
theorem test_xor : aluResult (.xor 0 1 2) 0xFFFF 0x1234 0xEDCB = true := by decide
theorem test_nor : aluResult (.nor 0 1 2) 0x00FF 0x0F00 0xF000 = true := by decide
theorem test_add : aluResult (.add 0 1 2) 0xFFFF 0x0002 0x0001 = true := by decide
theorem test_adc : aluResult (.adc 0 1 2) 0xFFFF 0xFFFF 0xFFFF = true := by decide
theorem test_adc_sub : aluResult (.adc 0 1 2) 10 0xFFFC 7 = true := by decide
theorem test_shl : aluResult (.shl 0 1 2) 0x1234 4 0x2340 = true := by decide
theorem test_shl_16 : aluResult (.shl 0 1 2) 1 33 0 = true := by decide
theorem test_shr : aluResult (.shr 0 1 2) 0x8000 15 1 = true := by decide
theorem test_shr_all : aluResult (.shr 0 1 2) 0xFFFF 0xFFFF 0 = true := by decide

/-- V62: the other views see the bytes. -/
theorem test_add_aliases : after (exec (.add 3 0 0) (st [] [(0, 0x0102), (2, 0x5555), (3, 0xAAAA)] 0))
    (fun t => t.x32 1 == 0x02045555 && t.x8 6 == 4 && t.x8 7 == 2) = true := by decide

/-! ### Control transfer -/

/-- V67: the target is read after the link is written. -/
theorem test_jal_same : after (step ((st [] [] 100).withFetchWord 32 0x08010108))
    (fun t => t.x16 1 == 112 && t.pc == 112) = true := by decide

/-- V70: the link stays when the jump traps. -/
theorem test_jal_traps : after (step ((st (p1seg0 ++ h64) [(3, 2048)] 40).withFetchWord 32 0x00030608))
    (fun t => traps 1 44 0 64 t && t.x16 6 == 44) = true := by decide

/-- V72. -/
theorem test_beq : after (step ((st [] [(0, 7), (1, 7)] 40).withFetchWord 32 0xF8010009)) (fun t => t.pc == 32) = true := by
  decide

/-- V83. -/
theorem test_beq_traps : after (step ((st (p1seg0 ++ h64) [] 2044).withFetchWord 32 0x08000009))
    (fun t => traps 1 2048 0 64 t) = true := by decide

/-- V74. -/
theorem test_bne : after (step ((st [] [(0, 4)] 24).withFetchWord 32 0xF801000A)) (fun t => t.pc == 16) = true := by decide

/-- V84: not taken, no check. -/
theorem test_bne_not_taken : after (step ((st p1seg0 [] 2044).withFetchWord 32 0x0800000A)) (fun t => t.pc == 2048) = true := by
  decide

/-- V76. -/
theorem test_blt : after (step ((st [] [(0, 1), (1, 0xFFFF)] 0).withFetchWord 32 0x0801000B)) (fun t => t.pc == 8) = true := by
  decide

/-- V77. -/
theorem test_blt_not : after (step ((st [] [(0, 0xFFFF), (1, 1)] 0).withFetchWord 32 0x0801000B)) (fun t => t.pc == 4) = true := by
  decide

/-- V78. -/
theorem test_bgt : after (step ((st [] [(0, 0x8000), (1, 0x7FFF)] 0).withFetchWord 32 0x0801000C)) (fun t => t.pc == 8) = true := by
  decide

/-- V79. -/
theorem test_bgt_not : after (step ((st [] [(0, 5), (1, 5)] 0).withFetchWord 32 0x0801000C)) (fun t => t.pc == 4) = true := by
  decide

/-! ### Traps -/

/-- V88. -/
theorem test_int : after (step ((st [(1120, 2), (1038, 1), (1126, 3)] [] 100).withFetchWord 32 0x00FCFF15))
    (fun t => traps 2 96 0xFF 0x300 t) = true := by decide

/-- V94: the poll of the trap's cycle. -/
theorem test_int_poll : after (step ((st (p1seg0 ++ h64 ++ [(1022, 1), (1023, 0x41)]) [] 40).withFetchWord 32 0x00040215))
    (fun t => traps 1 44 2 64 t && t.out == [0x41]) = true := by decide

/-! ### Reset and load -/

/-- V96 and V97 on an image of 1121 bytes. -/
theorem test_load : after (load .reference (Vector.replicate 32 0)
      (List.replicate 1026 0 ++ [2] ++ List.replicate 93 0 ++ [7]))
    (fun t => t.mem.read 1120 == 0 && t.legality 0 == 0x80000002) = true := by decide +kernel

/-- P1, the source's scenario 1. -/
theorem test_run_p1 : ((runImage .reference (Vector.replicate 32 0)
      [1, 0, 10, 0, 1, 1, 20, 0, 0x11, 2, 0, 1, 0, 0, 0, 0] 10).map
        fun r => (r.status, r.final.x16 2, r.final.pc)) = some (.halted, 30, 16) := by decide

/-! ### The assembler -/

/-- S1. -/
theorem test_asm_bne : assembleLine .reference (ascii "bne r0 r1 d-8") = .ok [0x0A, 0, 1, 0xF8] := by rfl

/-- S2. -/
theorem test_asm_truncates : assembleLine .reference (ascii "lim r0 d65537") = .ok [1, 0, 1, 0] := by rfl

/-- S8: two lines, and the escapes of the source's scenario 3. -/
theorem test_asm_string : assemble .reference (ascii "nop\n\n\"ab\\n\\0c\"\n") = .ok [0x40, 0, 0, 0, 0x61, 0x62, 0x0A, 0, 0x63] := by rfl

/-- R92. -/
theorem test_asm_kind : assembleLine .reference (ascii "lim r0 r1") = .error .operandKind := by rfl

/-- R99. -/
theorem test_asm_unterminated : assembleLine .reference (ascii "\"ab") = .error .unterminatedString := by rfl

/-- R103. -/
theorem test_asm_char : assembleLine .reference (ascii "int 'A d4") = .ok [0x15, 0x41, 4, 0] := by rfl

/-! ### Witnesses: for each statement with hypotheses, states and operands that meet them, one for each clause, at a
boundary value of its range -/

/-- A superuser's state with an instruction word at pc. -/
def run0 (w : Nat) (regs : List (Fin 16 × Half)) : State := (st [] regs 0).withFetchWord 32 w

/-- A confined process's state: process 1 with segment 1 only, pc in segment 1. -/
def run1 (w : Nat) (regs : List (Fin 16 × Half)) : State :=
  (st [(1120, 1), (1032, 2), (1125, 64)] regs 2048).withFetchWord 32 w

/-- OpcodesOccupyZeroToTwentyOne, OpcodeSelectsTheRule, EncodeDecodeKeepsUsedFields (with test_reference_wf). -/
theorem witness_opcodes : (21#8).toNat ≤ 21 ∧ opcodeOf .reference .int = 21 ∧ (0#8).toNat ≤ 21 ∧ 22 ≤ (22#8).toNat := by
  decide

/-- ResetSequence, FirstFetchNeverFaults, ResetSatisfiesInvariant. -/
theorem witness_load : load .reference (Vector.replicate 32 7) [1] = .next (.resetWith .reference (Vector.replicate 32 7) [1])
    ∧ (List.replicate 65536 (0 : Byte)).length ≤ 65536 ∧ 65536 < (List.replicate 65537 (0 : Byte)).length :=
  ⟨rfl, by rw [List.length_replicate], by rw [List.length_replicate]; decide⟩

/-- Every statement about a running cycle. -/
theorem witness_fetches : (run0 0x01000211 []).fetches ∧ (run1 0x01000211 []).fetches := by
  unfold State.fetches; decide

/-- StepRunsDecodedInstruction, its next outcome. -/
theorem witness_step_next : exec (decode (run0 0x01000211 []).cfg (run0 0x01000211 []).fetch) (run0 0x01000211 [])
    = .next (run0 0x01000211 []) := by rfl

/-- StepRunsDecodedInstruction, its fault. -/
theorem witness_step_fault : exec (decode (run0 0x00011001 []).cfg (run0 0x00011001 []).fetch) (run0 0x00011001 [])
    = .fault (.registerIndex (.lim 16 1)) := by rfl

/-- CycleEnd: both values of the flag and of the halt test. -/
theorem witness_cycle_end : (run0 0x00000106 [(0, 1022), (1, 0x4801)]).fetches ∧
    after (exec (.s16 1 0 0) (run0 0x00000106 [(0, 1022), (1, 0x4801)])) (fun u => u.mem.read 1022 != 0) = true ∧
    after (exec .hlt (run0 0 [])) (fun u => u.mem.read 1022 == 0) = true ∧
    (run0 0 []).fetch.op = 0 ∧ (run0 0x00000106 [(0, 1022), (1, 0x4801)]).fetch.op ≠ 0 := by
  unfold State.fetches; decide

/-- FetchFaultChangesNothingElse. -/
theorem witness_fetch_fault : (st p1seg0 [] 2048).run = .running ∧ (st p1seg0 [] 2048).readLegal 2048 1 = false ∧
    (st p1seg0 [] 2048).pc = 2048 ∧ (st p1seg0 [] 2048).cur = 1 := by decide

/-- FinalStatesStay. -/
theorem witness_final : { State.reset with run := .halted }.run ≠ .running ∧
    { State.reset with run := .fetchFaulted 9 }.run ≠ .running := by decide

/-- HltHaltsTheEngine, under a process that is no superuser. -/
theorem witness_hlt : (run1 0xFFFFFF00 []).fetches ∧ (run1 0xFFFFFF00 []).fetch.op = 0 := by
  unfold State.fetches; decide

/-- UndefinedOpcodesAreNoOps, at both ends of 22..255. -/
theorem witness_nop : (run1 22 []).fetches ∧ 22 ≤ (run1 22 []).fetch.op.toNat ∧ (run0 255 []).fetches ∧
    22 ≤ (run0 255 []).fetch.op.toNat := by
  unfold State.fetches; decide

/-- ConsoleFlagClearAfterEveryCycle, AtMostOneByteEmitted, StepKeepsParameters. -/
theorem witness_next : step (run0 0x40 []) = .next ((run0 0x40 []).withPc 4) := by rfl

/-- ExecStopsExactlyOutOfView. -/
theorem witness_wellFormed : (Instr.s08 31 15 0).wellFormed State.reset.cfg = true ∧
    (Instr.s08 32 15 0).wellFormed State.reset.cfg = false := by decide

/-- StepKeepsInvariant. -/
theorem witness_invariant : (run0 0x40 []).Inv ∧
    { st p1seg0 [] 2048 with run := .fetchFaulted 2048 }.Inv := by
  refine ⟨⟨by decide, fun a h => ?_⟩, ⟨by decide, fun a h => ?_⟩⟩
  · cases h
  · cases h
    decide

/-- ConfinedProcessCannotChangeSegmentZero, ConfinedWritesStartInAllowedSegments: a confined process whose step traps,
and one whose step stores into its own segment. -/
theorem witness_confined : (run1 0x00040515 []).confined ∧ (run1 0x00000106 [(0, 2100), (1, 7)]).confined ∧
    after (step (run1 0x00040515 [])) (fun t => t.mem.read 1124 == 5 && t.cur == 0) = true ∧
    after (step (run1 0x00000106 [(0, 2100), (1, 7)])) (fun t => t.mem.read 2100 == 7 && t.cur == 1) = true := by
  unfold State.confined; decide

/-- ConfinedWritesStartInAllowedSegments: the console flag as the byte that a step of a confined process changes. -/
theorem witness_confined_flag : after (step ((run1 0x40 []).withMem ((run1 0x40 []).mem.write 1022 1)))
    (fun t => t.mem.read 1022 == 0) = true := by decide

/-- CurrentProcessChangesOnlyByTrapOrStore: a trap, and a store of each width that covers 1120. -/
theorem witness_cur_changes : after (step (run1 0x00040515 [])) (fun t => t.cur != 1) = true ∧
    after (step (run0 0x00010005 [(0, 2), (1, 1120)])) (fun t => t.cur == 2) = true ∧
    after (step (run0 0x00010006 [(0, 0x0500), (1, 1119)])) (fun t => t.cur == 5) = true ∧
    after (step (run0 0x00000107 [(0, 1117), (3, 0x0500)])) (fun t => t.cur == 5) = true := by decide

/-- StoreToCurActsAtNextFetch: for each width the store whose last byte covers 1120, with the process made current one
that may not read the next instruction, and one (the same process 0) that may. -/
theorem witness_store_cur :
    (let s := run0 0x00010005 [(0, 2), (1, 1120)]
     s.fetches ∧ decode s.cfg s.fetch = .s08 0 1 0 ∧ s.writeLegal (s.effAddr 1 0) (s.preAddr 1 0) s.cur = true ∧
     (1120#16 - s.effAddr 1 0).toNat = 0 ∧ after (step s) (fun t => t.cur == 2 && !t.readLegal t.pc t.cur) = true) ∧
    (let s := run0 0x00010006 [(0, 0x0500), (1, 1119)]
     s.fetches ∧ decode s.cfg s.fetch = .s16 0 1 0 ∧ s.writeLegal (s.effAddr 1 0) (s.preAddr 1 0) s.cur = true ∧
     (1120#16 - s.effAddr 1 0).toNat = 1 ∧ after (step s) (fun t => t.cur == 5 && !t.readLegal t.pc t.cur) = true) ∧
    (let s := run0 0x00000707 [(0, 1117)]
     s.fetches ∧ decode s.cfg s.fetch = .s32 7 0 0 ∧ s.writeLegal (s.effAddr 0 0) (s.preAddr 0 0) s.cur = true ∧
     (1120#16 - s.effAddr 0 0).toNat = 3 ∧ after (step s) (fun t => t.cur == 0 && t.readLegal t.pc t.cur) = true) := by
  unfold State.fetches; decide

/-- ReadLegality, WriteLegality, at the first address of segment 31 and at the tail. -/
theorem witness_legality : 63488 ≤ (63488#16).toNat ∧ (st [] [] 0).superuser 0 = true ∧ (st p1seg0 [] 0).superuser 1 = false ∧
    (st p1seg0 [] 0).writeLegal 0 2015 1 = true ∧ (st p1seg0 [] 0).writeLegal 0 2016 1 = false := by decide

/-- LimLoadsImmediate, the loads and the stores, the REG3 instructions, jumps and branches: the boundary registers, a
legal and an illegal address, and one register too many. -/
theorem witness_access : (31#8).toNat < 32 ∧ (15#8).toNat < 16 ∧ (7#8).toNat < 8 ∧ ¬(32#8).toNat < 32 ∧ ¬(16#8).toNat < 16 ∧
    ¬(8#8).toNat < 8 ∧
    (let s := st p1seg0 [(15, 2015)] 0
     s.readLegal (s.effAddr 15 0) s.cur = true ∧ s.readLegal (s.effAddr 15 33) s.cur = false ∧
     s.writeLegal (s.effAddr 15 0) (s.preAddr 15 0) s.cur = true ∧
     s.writeLegal (s.effAddr 15 1) (s.preAddr 15 1) s.cur = false) := by decide

/-- LoadWordEffect. -/
theorem witness_l32_order : State.reset.cfg.l32Order = .destFirst ∧
    { State.reset with cfg := ⟨Config.reference.opcodes, .addrFirst⟩ }.cfg.l32Order = .addrFirst := by decide

/-- AdcOfComplementSubtracts. -/
theorem witness_adc : (st [] [(2, 0xFFFC)] 0).x16 2 = ~~~3#16 := by decide

/-- JalLinksThenJumps: a legal and an illegal target, with the base apart from the destination and with the base the
destination. -/
theorem witness_jal : (let s := st p1seg0 [(3, 2047), (4, 2048)] 40
    s.readLegal (s.x16 3) s.cur = true ∧ s.readLegal (s.x16 4) s.cur = false ∧
    ((44#16).toNat : Int) = (s.pc.toNat + (0#8).toInt + 4) % 2 ^ 16 ∧ s.readLegal 44 s.cur = true) ∧
    (let s := st p1seg0 [] 2044
     ((2048#16).toNat : Int) = (s.pc.toNat + (0#8).toInt + 4) % 2 ^ 16 ∧ s.readLegal 2048 s.cur = false) := by decide

/-- EqualityBranches, OrderBranches: a legal target, an illegal one, and the four conditions with both outcomes. -/
theorem witness_branch : (let s := st p1seg0 [(0, 1), (1, 2)] 2044
    ((2047#16).toNat : Int) = (s.pc.toNat + (3#8).toInt) % 2 ^ 16 ∧ s.readLegal 2047 s.cur = true ∧
    ((2048#16).toNat : Int) = (s.pc.toNat + (4#8).toInt) % 2 ^ 16 ∧ s.readLegal 2048 s.cur = false ∧
    (s.x16 0).toNat = (s.x16 0).toNat ∧ (s.x16 0).toNat ≠ (s.x16 1).toNat ∧ (s.x16 0).toNat < (s.x16 1).toNat ∧
    ¬(s.x16 0).toNat > (s.x16 1).toNat ∧ (s.x16 1).toNat > (s.x16 0).toNat) := by decide

/-- BranchToItselfRepeats: the four kinds, taken, each on two registers. -/
theorem witness_branch_self :
    (let s := run1 0x000F0E09 [(14, 7), (15, 7)]
     s.fetches ∧ decode s.cfg s.fetch = .beq 14 15 0 ∧ (s.x16 14).toNat = (s.x16 15).toNat ∧ s.consoleFlag = 0#8) ∧
    (let s := run1 0x0001000A [(1, 2)]
     s.fetches ∧ decode s.cfg s.fetch = .bne 0 1 0 ∧ (s.x16 0).toNat ≠ (s.x16 1).toNat) ∧
    (let s := run1 0x0001000B [(1, 2)]
     s.fetches ∧ decode s.cfg s.fetch = .blt 0 1 0 ∧ (s.x16 0).toNat < (s.x16 1).toNat) ∧
    (let s := run1 0x0000010C [(1, 2)]
     s.fetches ∧ decode s.cfg s.fetch = .bgt 1 0 0 ∧ (s.x16 1).toNat > (s.x16 0).toNat) := by
  unfold State.fetches; decide

/-- IntCycleEntersHandler. -/
theorem witness_int : (run1 0x0080FF15 []).fetches ∧
    decode (run1 0x0080FF15 []).cfg (run1 0x0080FF15 []).fetch = .int 0xFF 0x80 := by
  unfold State.fetches; decide

/-- TrapCycleEntersHandler, for the same `int`, whose registers do not change. -/
theorem witness_trap_cycle : exec (decode (run1 0x0080FF15 []).cfg (run1 0x0080FF15 []).fetch) (run1 0x0080FF15 [])
      = .next ((run1 0x0080FF15 []).softTrap 0xFF 0x80) ∧
    TrapTaken ((run1 0x0080FF15 []).withArena (run1 0x0080FF15 []).arena) 0xFF (-128)
      ((run1 0x0080FF15 []).softTrap 0xFF 0x80) :=
  ⟨rfl, by decide, by decide, by decide, by decide, by decide, fun _ ha => State.trapTransfer_frame _ _ _ ha, rfl, rfl, rfl, rfl⟩

/-- TrapCycleEntersHandler, for a `jal` to an illegal target: the link 2052 is written and the trap taken. -/
theorem witness_trap_cycle_jal : (run1 0x00030608 []).fetches ∧
    exec (decode (run1 0x00030608 []).cfg (run1 0x00030608 []).fetch) (run1 0x00030608 [])
      = .next ((run1 0x00030608 []).setX16 6 2052).memProtTrap ∧
    TrapTaken ((run1 0x00030608 []).withArena ((run1 0x00030608 []).setX16 6 2052).memProtTrap.arena) 0 4
      ((run1 0x00030608 []).setX16 6 2052).memProtTrap ∧
    ((run1 0x00030608 []).setX16 6 2052).memProtTrap.arena ≠ (run1 0x00030608 []).arena :=
  ⟨by unfold State.fetches; decide, rfl,
    ⟨by decide, by decide, by decide, by decide, by decide, fun _ ha => State.trapTransfer_frame _ _ _ ha, rfl, rfl, rfl, rfl⟩, by decide⟩

/-- FuelOnlyCutsARunShort. -/
theorem witness_fuel : (runFuel 1 .reset).status ≠ .outOfFuel ∧ (runFuel 0 .reset).status = .outOfFuel ∧
    (runFuel 1 (run0 0x40 [])).status = .outOfFuel := by decide

/-- UnbudgetedRunIsEveryLongRun: a run without a budget that ends after one cycle, and a state whose run has no end. -/
theorem witness_unbudgeted : runsTo none .reset ⟨.halted, (State.reset.withPc 4).withRun .halted⟩ ∧
    imageRunsTo .reference (Vector.replicate 32 0) [] none ⟨.halted, (State.reset.withPc 4).withRun .halted⟩ ∧
    (run0 0x00000009 []).runsForever :=
  ⟨.cycle rfl rfl (.halted rfl), ⟨.reset, rfl, .cycle rfl rfl (.halted rfl)⟩, runsForever_of_fixed rfl rfl⟩

/-- AssembledLineDecodes: `add r31 r0 r1` and `lim r0 d-1`. -/
theorem witness_assembled : (∀ o ∈ [Operand.reg 31, .reg 0, .reg 1], assemblerRange o) ∧
    packOperands (mnemonicShape .add) [.reg 31, .reg 0, .reg 1] = .ok (31, 0, 1) ∧
    packOperands (mnemonicShape .lim) [.reg 0, .imm (-1)] = .ok (0, 0xFF, 0xFF) := by
  refine ⟨?_, rfl, rfl⟩
  intro o h
  fin_cases h <;> simp [assemblerRange]

/-- LinesConcatenate, each of its clauses. -/
theorem witness_lines : 10#8 ∉ ascii "nop" ∧ assembleLine .reference (ascii "nop") = .ok [0x40, 0, 0, 0] ∧
    assemble .reference (ascii "hlt") = .ok [0, 0, 0, 0] ∧ assembleLine .reference (ascii "xyz") = .error .unknownMnemonic ∧
    assemble .reference (ascii "lim") = .error .operandCount := by
  refine ⟨by decide, rfl, rfl, rfl, rfl⟩

end Sys2Proof.Machine.Tests
end

section
/-! PROOFS. Family spec/00_scope.md: the views' bytes and memory's bytes by their distance from the first one, address
translation over the integers, and runs without a budget. -/

namespace Sys2Proof.Machine

/-! ### Byte j of a value (R11, R12) -/

/-- Eight bits of a value from bit `n`, as arithmetic: `(v >> n) mod 256`. -/
theorem toNat_extract_byte {w : Nat} (v : BitVec w) (n : Nat) : (v.extractLsb' n 8).toNat = v.toNat / 2 ^ n % 256 := by
  rw [BitVec.extractLsb'_toNat, Nat.shiftRight_eq_div_pow]

/-- Byte `j` of a value is its digit of weight 256^j. -/
theorem toNat_extract_digit {w : Nat} (v : BitVec w) (j : Nat) :
    (v.extractLsb' (8 * j) 8).toNat = v.toNat / 256 ^ j % 256 := by
  rw [toNat_extract_byte, Nat.pow_mul]

/-! ### Arena bytes after a view write, by their place in the view -/

/-- Register `i` of x16 covers the bytes `k` with `k div 2 = i`, each at place `k mod 2` of the value. -/
theorem readX8_writeX16_place (A : Arena) (i : Fin 16) (k : Fin 32) (v : Half) :
    readX8 (writeX16 A i v) k
      = if k.val / 2 = i.val then v.extractLsb' (8 * (k.val % 2)) 8 else readX8 A k := by
  rw [readX8_writeX16]
  by_cases hc : k.val / 2 = i.val
  · rw [if_pos hc]
    obtain h | h : k.val % 2 = 0 ∨ k.val % 2 = 1 := by omega
    · rw [h]; simp [show k.val = 2 * i.val by omega]
    · rw [h]; simp [show k.val = 2 * i.val + 1 by omega]
  · simp [hc, show k.val ≠ 2 * i.val by omega, show k.val ≠ 2 * i.val + 1 by omega]

/-- Register `i` of x32 covers the bytes `k` with `k div 4 = i`, each at place `k mod 4` of the value. -/
theorem readX8_writeX32_place (A : Arena) (i : Fin 8) (k : Fin 32) (v : Word) :
    readX8 (writeX32 A i v) k
      = if k.val / 4 = i.val then v.extractLsb' (8 * (k.val % 4)) 8 else readX8 A k := by
  rw [readX8_writeX32]
  by_cases hc : k.val / 4 = i.val
  · rw [if_pos hc]
    obtain h | h | h | h : k.val % 4 = 0 ∨ k.val % 4 = 1 ∨ k.val % 4 = 2 ∨ k.val % 4 = 3 := by omega
    · rw [h]; simp [show k.val = 4 * i.val by omega]
    · rw [h]; simp [show k.val = 4 * i.val + 1 by omega]
    · rw [h]; simp [show k.val = 4 * i.val + 2 by omega]
    · rw [h]; simp [show k.val = 4 * i.val + 3 by omega]
  · simp [hc, show k.val ≠ 4 * i.val by omega, show k.val ≠ 4 * i.val + 1 by omega,
      show k.val ≠ 4 * i.val + 2 by omega, show k.val ≠ 4 * i.val + 3 by omega]

/-- Settles O26: each register covers one block of arena bytes, and a write puts the value's digits there. -/
theorem viewWritesSetTheirBytes : Obligations.ViewWritesSetTheirBytes := by
  refine fun s k => ⟨fun i v => ?_, fun i v => ?_, fun i v => ?_⟩
  · simp [State.x8, readX8_writeX8, Fin.ext_iff]
  · simp only [State.x8, State.setX16_arena, readX8_writeX16_place, ← toNat_extract_digit, apply_ite BitVec.toNat]
  · simp only [State.x8, State.setX32_arena, readX8_writeX32_place, ← toNat_extract_digit, apply_ite BitVec.toNat]

/-! ### Memory bytes after a write, by their distance mod 2^16 from the address -/

/-- Byte `d` from the first after a two-byte write, with the wrap of R12. -/
theorem Memory.read_write16_distance (m : Memory) (a d : Addr) (v : Half) :
    (m.write16 a v).read (a + d) = if d.toNat < 2 then v.extractLsb' (8 * d.toNat) 8 else m.read (a + d) := by
  rw [Memory.read_write16]
  by_cases hd : d.toNat < 2
  · obtain rfl | rfl : d = 0#16 ∨ d = 1#16 := by bv_omega
    · simp
    · simp
  · simp [hd, show d ≠ 0#16 by bv_omega, show d ≠ 1#16 by bv_omega]

/-- Byte `d` from the first after a four-byte write, with the wrap of R12. -/
theorem Memory.read_write32_distance (m : Memory) (a d : Addr) (v : Word) :
    (m.write32 a v).read (a + d) = if d.toNat < 4 then v.extractLsb' (8 * d.toNat) 8 else m.read (a + d) := by
  rw [Memory.read_write32]
  by_cases hd : d.toNat < 4
  · obtain rfl | rfl | rfl | rfl : d = 0#16 ∨ d = 1#16 ∨ d = 2#16 ∨ d = 3#16 := by bv_omega
    · simp
    · simp
    · simp
    · simp
  · simp [hd, show d ≠ 0#16 by bv_omega, show d ≠ 1#16 by bv_omega, show d ≠ 2#16 by bv_omega,
      show d ≠ 3#16 by bv_omega]

/-- Settles O27: every address is the first one plus its distance, so the bytes follow from the distance lemmas. -/
theorem memReadMemWrite : Obligations.MemReadMemWrite := by
  intro m a x
  obtain ⟨d, rfl⟩ : ∃ d, x = a + d := ⟨x - a, by bv_omega⟩
  have hd : a + d - a = d := by bv_omega
  refine ⟨toNat_append16 _ _, toNat_append32 _ _ _ _, m.read_write a (a + d), fun v => ?_, fun v => ?_⟩
  · rw [hd, Memory.read_write16_distance, ← toNat_extract_byte, apply_ite BitVec.toNat]
  · rw [hd, Memory.read_write32_distance, ← toNat_extract_byte, apply_ite BitVec.toNat]

/-! ### Address translation over the integers (R10, R58) -/

theorem State.preAddr_toNat (s : State) (b : Fin 16) (k : Byte) :
    ((s.preAddr b k).toNat : Int) = ((s.x16 b).toNat + k.toInt) % 2 ^ 16 := by
  rw [State.preAddr, BitVec.toNat_add, Int.natCast_mod, Int.natCast_add, sext8_toNat]
  exact Int.add_emod_emod _ _ _

theorem State.effAddr_toNat (s : State) (b : Fin 16) (k : Byte) :
    ((s.effAddr b k).toNat : Int) = ((s.offset s.cur).toNat + (s.x16 b).toNat + k.toInt) % 2 ^ 16 := by
  rw [State.effAddr, BitVec.toNat_add, Int.natCast_mod, Int.natCast_add, State.preAddr_toNat, Int.add_assoc]
  exact Int.add_emod_emod _ _ _

/-- Settles O31, by the two translation lemmas. -/
theorem addressTranslation : Obligations.AddressTranslation :=
  fun s b k => ⟨s.preAddr_toNat b k, s.effAddr_toNat b k⟩

/-! ### Runs without a budget (R9, R203, R204) -/

/-- A budgeted run that does not run out of fuel is a run to its end. -/
theorem EndsWith.of_runFuel {n : Nat} {s : State} (h : (runFuel n s).status ≠ .outOfFuel) : EndsWith s (runFuel n s) := by
  fun_induction runFuel n s with
  | case1 _ s hr => exact .halted hr
  | case2 _ s a hr => exact .fetchFaulted hr
  | case3 s hr => exact absurd rfl h
  | case4 s hr n t hs ih => exact .cycle hr hs (ih h)
  | case5 s hr n f hs => exact .undefined hr hs
  | case6 s hr n r hs => exact .refused hr hs

/-- The end of a run is a state of the core or a stop of the model, never a budget's end. -/
theorem EndsWith.status_ne {s : State} {r : RunResult} (h : EndsWith s r) : r.status ≠ .outOfFuel := by
  induction h with
  | halted | fetchFaulted | undefined | refused => simp
  | cycle _ _ _ ih => exact ih

/-- A run that ends gives its result under every budget from some number of cycles on. -/
theorem EndsWith.runFuel_eq {s : State} {r : RunResult} (h : EndsWith s r) : ∃ n, ∀ m, n ≤ m → runFuel m s = r := by
  induction h with
  | halted h => exact ⟨0, fun m _ => runFuel_halted h m⟩
  | fetchFaulted h => exact ⟨0, fun m _ => runFuel_fetchFaulted h m⟩
  | undefined h hs | refused h hs =>
    refine ⟨1, fun m hm => ?_⟩
    obtain ⟨m, rfl⟩ := Nat.exists_eq_add_of_le' hm
    rw [runFuel_succ h, hs]
  | cycle h hs _ ih =>
    obtain ⟨n, hn⟩ := ih
    refine ⟨n + 1, fun m hm => ?_⟩
    obtain ⟨m, rfl⟩ := Nat.exists_eq_add_of_le' (Nat.le_of_add_left_le hm)
    rw [runFuel_succ h, hs]
    exact hn m (Nat.le_of_succ_le_succ hm)

theorem endsWith_iff_runFuel {s : State} {r : RunResult} :
    EndsWith s r ↔ ∃ n, runFuel n s = r ∧ r.status ≠ .outOfFuel := by
  constructor
  · intro h
    obtain ⟨n, hn⟩ := h.runFuel_eq
    exact ⟨n, hn n (Nat.le_refl n), h.status_ne⟩
  · rintro ⟨n, rfl, h⟩
    exact .of_runFuel h

/-- A state has at most one end: a budget large enough for two results gives both. -/
theorem EndsWith.unique {s : State} {r r' : RunResult} (h : EndsWith s r) (h' : EndsWith s r') : r = r' := by
  obtain ⟨n, hn⟩ := h.runFuel_eq
  obtain ⟨n', hn'⟩ := h'.runFuel_eq
  exact (hn _ (Nat.le_max_left n n')).symm.trans (hn' _ (Nat.le_max_right n n'))

theorem runsForever_iff_no_end {s : State} : s.runsForever ↔ ¬∃ r, EndsWith s r := by
  constructor
  · rintro hf ⟨r, hr⟩
    obtain ⟨n, rfl, hne⟩ := endsWith_iff_runFuel.mp hr
    exact hne (hf n)
  · intro hno n
    by_contra hne
    exact hno ⟨_, .of_runFuel hne⟩

/-- The budgeted run of an image, as a function and as a relation. -/
theorem runImage_eq_some {c : Config} {A : Arena} {img : List Byte} {n : Nat} {r : RunResult} :
    runImage c A img n = some r ↔ imageRunsTo c A img (some n) r := by
  unfold runImage imageRunsTo
  cases load c A img <;> simp

/-- Settles O55: the relation's ends are the budgeted runs' results, and a run's result is stable from some budget on. -/
theorem unbudgetedRunIsEveryLongRun : Obligations.UnbudgetedRunIsEveryLongRun := by
  refine fun s => ⟨fun r => endsWith_iff_runFuel, fun r r' => EndsWith.unique, runsForever_iff_no_end,
    fun c A img r => ?_⟩
  simp only [runImage_eq_some]
  constructor
  · rintro ⟨t, ht, hr⟩
    obtain ⟨n, hn, hne⟩ := endsWith_iff_runFuel.mp hr
    exact ⟨n, ⟨t, ht, hn⟩, hne⟩
  · rintro ⟨n, ⟨t, ht, hn⟩, hne⟩
    exact ⟨t, ht, endsWith_iff_runFuel.mpr ⟨n, hn, hne⟩⟩

end Sys2Proof.Machine
end

section
/-! PROOFS. Family spec/10_state.md: what a step does to the parameters, the output stream and segment 0, when an execute
phase completes, the views of the arena and the layout of the process table. -/

namespace Sys2Proof.Machine

/-! ### Memory at the end of a cycle -/

/-- The end of a cycle changes no byte but the console flag (R112). -/
theorem State.endCycle_read_of_ne (s : State) (op : Byte) {a : Addr} (ha : a ≠ 1022#16) :
    (s.endCycle op).mem.read a = s.mem.read a := by
  rw [State.endCycle_mem, State.poll_read, if_neg ha]

/-! ### Segment 0 under a confined process (R35, R64, R174) -/

/-- A segment that a confined process may use is none of 0 and 31: bit 31 of the legality word is the superuser bit. -/
theorem State.confined.addr_bounds {s : State} (hc : s.confined) {a : Addr}
    (h : (s.legality s.cur).getLsbD (segmentOf a) = true) : 2048 ≤ a.toNat ∧ a.toNat < 63488 := by
  obtain ⟨hsuper, hseg0⟩ := hc
  have h0 : segmentOf a ≠ 0 := fun e => by
    rw [e, hseg0] at h
    exact absurd h (by decide)
  have h31 : segmentOf a ≠ 31 := fun e => by
    rw [e] at h
    exact absurd (h.symm.trans hsuper) (by decide)
  unfold segmentOf at h0 h31
  omega

/-- A process that is no superuser may store only in the segments of its bitmap. -/
theorem State.writeLegal_segment {s : State} {ea pa : Addr} {p : Byte} (hs : s.superuser p = false)
    (h : s.writeLegal ea pa p = true) : (s.legality p).getLsbD (segmentOf ea) = true := by
  simp only [State.writeLegal, hs, Bool.false_or, Bool.and_eq_true] at h
  exact h.1

/-- A store from an address of the segments 1..30 does not wrap into segment 0. -/
theorem StoredAt.read_segment_zero {m m' : Memory} {ea a : Addr} (h : StoredAt m ea m') (hlo : 2048 ≤ ea.toNat)
    (hhi : ea.toNat < 63488) (ha : a.toNat < 2048) : m'.read a = m.read a :=
  h.read (by bv_omega) (by bv_omega) (by bv_omega) (by bv_omega)

/-- What an execute phase under a confined process can do to segment 0: nothing, or a trap's transfer. -/
theorem Effect.confined_cases {s u : State} (h : Effect s u) (hc : s.confined) :
    (∀ a : Addr, a.toNat < 2048 → u.mem.read a = s.mem.read a) ∨
    ∃ A c o, u = (s.withArena A).trapTransfer c o := by
  cases h with
  | quiet A a => exact .inl fun _ _ => rfl
  | store ea pa m legal hm =>
    obtain ⟨hlo, hhi⟩ := hc.addr_bounds (State.writeLegal_segment hc.1 legal)
    exact .inl fun a ha => hm.read_segment_zero hlo hhi ha
  | trap A c o => exact .inr ⟨A, c, o, rfl⟩

/-- What a cycle that trapped leaves, whatever it emits: process 0 current, the process before it as the return process,
and pc at the handler (R111, R160). -/
theorem State.endCycle_trapTransfer (s : State) (A : Arena) (c op : Byte) (o : Half) :
    let t := ((s.withArena A).trapTransfer c o).endCycle op
    t.cur = 0#8 ∧ t.returnProcess = s.cur ∧ t.pc = s.handlerPointer := by
  refine ⟨?_, ?_, ?_⟩
  · rw [State.cur, State.endCycle_read_of_ne _ _ (by decide)]
    exact State.trapTransfer_cur _ c o
  · rw [State.returnProcess, State.endCycle_read_of_ne _ _ (by decide)]
    exact State.trapTransfer_returnProcess _ c o
  · rw [State.endCycle_pc, State.trapTransfer_pc, BitVec.sub_add_cancel]
    rfl

/-- Settles O21: a store of a confined process starts in the segments 1..30 and cannot wrap, so only the poll and a trap
reach segment 0. -/
theorem confinedProcessCannotChangeSegmentZero : Obligations.ConfinedProcessCannotChangeSegmentZero := by
  intro s t hc h
  rcases step_effect h with ⟨-, rfl⟩ | ⟨-, -, rfl⟩ | ⟨-, -, u, hu, rfl⟩
  · exact ⟨fun _ _ _ _ => rfl, .inl fun _ _ _ => rfl⟩
  · exact ⟨fun _ _ _ _ => rfl, .inl fun _ _ _ => rfl⟩
  · rcases hu.confined_cases hc with hsame | ⟨A, c, o, rfl⟩
    · refine ⟨fun a ha hflag _ => ?_, .inl fun a hlo hhi => ?_⟩
      · rw [State.endCycle_read_of_ne _ _ hflag, hsame a ha]
      · rw [State.endCycle_read_of_ne _ _ (by bv_omega), hsame a (by omega)]
    · refine ⟨fun a _ hflag hfields => ?_, .inr (s.endCycle_trapTransfer A c _ o)⟩
      rw [State.endCycle_read_of_ne _ _ hflag, State.trapTransfer_frame _ _ _ hfields]
      rfl

/-! ### The output stream and the parameters (R39, R41) -/

/-- Settles O16: an execute phase leaves the stream alone, and the poll appends at most the data byte. -/
theorem atMostOneByteEmitted : Obligations.AtMostOneByteEmitted := by
  intro s t h
  rcases step_effect h with ⟨-, rfl⟩ | ⟨-, -, rfl⟩ | ⟨-, -, u, hu, rfl⟩
  · exact .inl rfl
  · exact .inl rfl
  · rw [State.endCycle_out, State.poll_out, hu.out]
    split
    · exact .inl rfl
    · exact .inr ⟨_, rfl⟩

/-- Settles O20: no part of the cycle writes them. -/
theorem stepKeepsParameters : Obligations.StepKeepsParameters := by
  intro s t h
  rcases step_effect h with ⟨-, rfl⟩ | ⟨-, -, rfl⟩ | ⟨-, -, u, hu, rfl⟩
  · rfl
  · rfl
  · rw [State.endCycle_cfg, hu.cfg]

/-- Settles O12: `step` runs the cycle in the status `Running` only. -/
theorem finalStatesStay : Obligations.FinalStatesStay := by
  intro s hs
  unfold step
  cases hr : s.run with
  | running => exact absurd hr hs
  | halted => rfl
  | fetchFaulted a => rfl

/-! ### When an execute phase completes (R21, R109) -/

/-- An execute phase of `i` that completes when `valid` holds, and else stops naming `i`. -/
def CompletesExactlyIf (valid : Bool) (i : Instr) (r : Result) : Prop :=
  (valid = true → ∃ t, r = .next t) ∧ (valid = false → r = .fault (.registerIndex i))

theorem CompletesExactlyIf.always (i : Instr) (t : State) : CompletesExactlyIf true i (.next t) :=
  ⟨fun _ => ⟨t, rfl⟩, fun h => absurd h (by decide)⟩

theorem CompletesExactlyIf.stopped (i : Instr) : CompletesExactlyIf false i (.fault (.registerIndex i)) :=
  ⟨fun h => absurd h (by decide), fun _ => rfl⟩

section
variable {i : Instr} {v₁ v₂ : Bool}

theorem withReg_completes {α : Type} {r : Option α} {body : α → State} (h : r.isSome = v₁) :
    CompletesExactlyIf v₁ i (withReg i r body) := by
  subst h
  cases r with
  | some a => exact .always i _
  | none => exact .stopped i

theorem withRegs_completes {α β : Type} {r₁ : Option α} {r₂ : Option β} {body : α → β → State}
    (h₁ : r₁.isSome = v₁) (h₂ : r₂.isSome = v₂) : CompletesExactlyIf (v₁ && v₂) i (withRegs i r₁ r₂ body) := by
  subst h₁ h₂
  cases r₁ with
  | none => exact .stopped i
  | some a =>
    cases r₂ with
    | none => exact .stopped i
    | some b => exact .always i _

theorem withRegs3_completes {v₃ : Bool} {d r₁ r₂ : Option (Fin 16)} {body : Fin 16 → Fin 16 → Fin 16 → State}
    (h₁ : d.isSome = v₁) (h₂ : r₁.isSome = v₂) (h₃ : r₂.isSome = v₃) :
    CompletesExactlyIf (v₁ && v₂ && v₃) i (withRegs3 i d r₁ r₂ body) := by
  subst h₁ h₂ h₃
  cases d with
  | none => exact .stopped i
  | some a =>
    cases r₁ with
    | none => exact .stopped i
    | some b =>
      cases r₂ with
      | none => exact .stopped i
      | some c => exact .always i _

end

/-- `l32` validates its destination as x32 and its base as x16 under either operand order (R23, R124). -/
theorem execL32_completes (a₁ a₂ k : Byte) (s : State) :
    CompletesExactlyIf ((Instr.l32 a₁ a₂ k).wellFormed s.cfg) (.l32 a₁ a₂ k) (execL32 a₁ a₂ k s) := by
  cases ho : s.cfg.l32Order with
  | destFirst =>
    simpa [Instr.wellFormed, execL32, ho] using withRegs_completes (view32_isSome a₁) (view16_isSome a₂)
  | addrFirst =>
    simpa [Instr.wellFormed, execL32, ho, Bool.and_comm] using
      withRegs_completes (view32_isSome a₂) (view16_isSome a₁)

/-- Every row validates the register fields of R23 before any effect. -/
theorem exec_completes (i : Instr) (s : State) : CompletesExactlyIf (i.wellFormed s.cfg) i (exec i s) := by
  cases i with
  | hlt | nop | int => exact .always _ _
  | lim r imm => exact withReg_completes (view16_isSome r)
  | l08 r b k | s08 r b k => exact withRegs_completes (view8_isSome r) (view16_isSome b)
  | l16 r b k | s16 r b k | jal r b k => exact withRegs_completes (view16_isSome r) (view16_isSome b)
  | l32 a₁ a₂ k => exact execL32_completes a₁ a₂ k s
  | s32 r b k => exact withRegs_completes (view32_isSome r) (view16_isSome b)
  | beq r₁ r₂ k | bne r₁ r₂ k | blt r₁ r₂ k | bgt r₁ r₂ k =>
    exact withRegs_completes (view16_isSome r₁) (view16_isSome r₂)
  | and d r₁ r₂ | eth d r₁ r₂ | xor d r₁ r₂ | nor d r₁ r₂ | add d r₁ r₂ | adc d r₁ r₂ | shl d r₁ r₂ | shr d r₁ r₂ =>
    exact withRegs3_completes (view16_isSome d) (view16_isSome r₁) (view16_isSome r₂)

/-- Settles O17, row by row through the operand forms. -/
theorem execStopsExactlyOutOfView : Obligations.ExecStopsExactlyOutOfView := exec_completes

/-! ### The three views of one arena (R20) -/

/-- A two-byte register is its two bytes, the lower-addressed one the less significant. -/
theorem readX16_toNat (A : Arena) (i : Fin 16) :
    (readX16 A i).toNat = (readX8 A ⟨2 * i.val, by omega⟩).toNat + 256 * (readX8 A ⟨2 * i.val + 1, by omega⟩).toNat := by
  rw [readX16_eq, toNat_append16]

/-- A four-byte register is two two-byte registers, the lower-numbered one the less significant. -/
theorem readX32_toNat (A : Arena) (i : Fin 8) :
    (readX32 A i).toNat
      = (readX16 A ⟨2 * i.val, by omega⟩).toNat + 65536 * (readX16 A ⟨2 * i.val + 1, by omega⟩).toNat := by
  have h0 : 2 * (2 * i.val) = 4 * i.val := by omega
  have h2 : 2 * (2 * i.val + 1) = 4 * i.val + 2 := by omega
  rw [readX32_eq, toNat_append32]
  simp only [readX16_toNat, h0, h2, Nat.add_assoc, Nat.reduceAdd]
  omega

/-- The low half of a four-byte register. -/
theorem readX32_toNat_mod (A : Arena) (i : Fin 8) :
    (readX32 A i).toNat % 65536 = (readX16 A ⟨2 * i.val, by omega⟩).toNat := by
  have := (readX16 A ⟨2 * i.val, by omega⟩).isLt
  rw [readX32_toNat]
  omega

/-- Settles O25, by the sums above; in the example the low half of x32[0] is x16[0], which is read back. -/
theorem viewsShareTheArena : Obligations.ViewsShareTheArena := by
  refine fun s => ⟨fun _ => rfl, readX16_toNat s.arena, readX32_toNat s.arena, ?_, ?_, ?_⟩
  · exact readX8_writeX16_place s.arena 0 0 0x1234#16
  · exact readX8_writeX16_place s.arena 0 1 0x1234#16
  · exact (readX32_toNat_mod _ 0).trans (congrArg BitVec.toNat (State.x16_setX16_self s 0 _))

/-! ### The process table (R30) -/

/-- No entry's address wraps: the last one, of process 255, begins at 2554. -/
theorem pptEntry_toNat (p : Byte) : (pptEntry p).toNat = 1024 + 6 * p.toNat := by
  have := p.isLt
  simp only [pptEntry, BitVec.toNat_add, BitVec.toNat_mul, BitVec.toNat_setWidth, BitVec.toNat_ofNat]
  omega

/-- The top bit of a four-byte read is the top bit of its last byte. -/
theorem Memory.read32_top (m : Memory) (a : Addr) : (m.read32 a).getLsbD 31 = (m.read (a + 3#16)).getLsbD 7 := by
  rw [Memory.read32, BitVec.getLsbD_append]
  rfl

/-- The top bit of a byte says whether it is at least 128. -/
theorem getLsbD_seven_iff (b : Byte) : b.getLsbD 7 = true ↔ 128 ≤ b.toNat := by
  have hmsb : b.getLsbD 7 = b.msb := b.msb_eq_getLsbD_last.symm
  rw [hmsb, BitVec.msb_eq_decide]
  exact decide_eq_true_iff

/-- `Super(p)` is bit 7 of the byte at E(p) + 5. -/
theorem State.superuser_iff (s : State) (p : Byte) :
    s.superuser p = true ↔ 128 ≤ (s.mem.read (pptEntry p + 5#16)).toNat := by
  rw [State.superuser, State.legality, Memory.read32_top, getLsbD_seven_iff, BitVec.add_assoc]
  rfl

/-- Settles O28; process 0's superuser bit is the general case at E(0) + 5 = 1029. -/
theorem processTableLayout : Obligations.ProcessTableLayout :=
  fun s p => ⟨pptEntry_toNat p, rfl, rfl, rfl, s.superuser_iff p, s.superuser_iff 0#8⟩

end Sys2Proof.Machine
end

section
/-! PROOFS. Family spec/20_memory.md: the bits of the process table that the legality checks read, what a step keeps of the
invariant, where a process that is no superuser writes, and a store to the current process's byte. -/

namespace Sys2Proof.Machine

/-! ### The invariant (R44, R108, R202) -/

/-- A fetch-faulted engine keeps the faulting address in pc and may not fetch there: the second half of `State.Inv`. -/
theorem State.Inv.fetchFault {s : State} (h : s.Inv) (hl : s.readLegal s.pc s.cur = false) : s.fetchFault.Inv := by
  refine ⟨h.1, fun a ha => ?_⟩
  obtain rfl : s.pc = a := RunStatus.fetchFaulted.inj ha
  exact ⟨rfl, hl⟩

/-- The end of a running cycle is no fetch fault, so canonical memory is all there is to keep. -/
theorem State.endCycle_inv {u : State} (op : Byte) (hr : u.run = .running) (hm : u.mem.wf = true) :
    (u.endCycle op).Inv := by
  refine ⟨by rw [State.endCycle_mem]; exact u.poll_wf hm, fun a ha => ?_⟩
  rw [State.endCycle_run, hr] at ha
  split at ha
  · cases ha
  · cases ha

/-- Settles O19, by the three ways a step answers a next state. -/
theorem stepKeepsInvariant : Obligations.StepKeepsInvariant := by
  intro s t hs h
  rcases step_effect h with ⟨-, rfl⟩ | ⟨-, hl, rfl⟩ | ⟨hr, -, u, hu, rfl⟩
  · exact hs
  · exact hs.fetchFault hl
  · exact State.endCycle_inv _ (hu.run.trans hr) (hu.wf hs.1)

/-! ### Writes of a process that is no superuser (R64, R66, R174) -/

/-- The bytes a store changes are among the four from its address. -/
theorem StoredAt.distance_lt_of_read_ne {m m' : Memory} {ea a : Addr} (h : StoredAt m ea m')
    (hne : m'.read a ≠ m.read a) : (a - ea).toNat < 4 := by
  by_contra hfar
  exact hne (h.read (by bv_omega) (by bv_omega) (by bv_omega) (by bv_omega))

/-- A byte that an execute phase of a process that is no superuser changes is a field of the trap, or one of four from an
address of a segment the process may use. -/
theorem Effect.changed_byte {s u : State} (h : Effect s u) (hs : s.superuser s.cur = false) {a : Addr}
    (hne : u.mem.read a ≠ s.mem.read a) :
    (1120 ≤ a.toNat ∧ a.toNat ≤ 1124) ∨
    ∃ ea : Addr, (s.legality s.cur).getLsbD (segmentOf ea) = true ∧ (a - ea).toNat < 4 := by
  cases h with
  | quiet A pc => exact absurd rfl hne
  | store ea pa m legal hm => exact .inr ⟨ea, State.writeLegal_segment hs legal, hm.distance_lt_of_read_ne hne⟩
  | trap A c o =>
    by_contra hno
    exact hne (State.trapTransfer_frame (s.withArena A) c o fun hfields => hno (.inl hfields))

/-- Settles O22: beside the execute phase only the poll writes, and it writes the console flag alone. -/
theorem confinedWritesStartInAllowedSegments : Obligations.ConfinedWritesStartInAllowedSegments := by
  intro s t a hs h hne
  rcases step_effect h with ⟨-, rfl⟩ | ⟨-, -, rfl⟩ | ⟨-, -, u, hu, rfl⟩
  · exact absurd rfl hne
  · exact absurd rfl hne
  · by_cases hflag : a = 1022#16
    · exact .inl hflag
    · rw [State.endCycle_read_of_ne _ _ hflag] at hne
      exact .inr (hu.changed_byte hs hne)

/-! ### The legality checks (R57, R63, R64) -/

/-- Bit `i` of a four-byte read is bit `i mod 8` of byte `i div 8`. -/
theorem Memory.read32_bit (m : Memory) (a : Addr) {i : Nat} (hi : i < 32) :
    (m.read32 a).getLsbD i = (m.read (a + BitVec.ofNat 16 (i / 8))).getLsbD (i % 8) := by
  simp only [Memory.read32, BitVec.getLsbD_append]
  obtain h | h | h | h : i / 8 = 0 ∨ i / 8 = 1 ∨ i / 8 = 2 ∨ i / 8 = 3 := by omega
  · simp [h, show i < 8 by omega, show i < 16 by omega, show i < 24 by omega, show i % 8 = i by omega]
  · simp [h, show ¬i < 8 by omega, show i < 16 by omega, show i < 24 by omega, show i % 8 = i - 8 by omega]
  · simp [h, show ¬i < 16 by omega, show i < 24 by omega, show i % 8 = i - 16 by omega]
  · simp [h, show ¬i < 24 by omega, show i % 8 = i - 24 by omega]

/-- `Super(p)` is bit 7 of the entry's last byte. -/
theorem State.superuser_eq_bit (s : State) (p : Byte) :
    s.superuser p = (s.mem.read (pptEntry p + 5#16)).getLsbD 7 := by
  rw [State.superuser, State.legality, Memory.read32_top, BitVec.add_assoc]
  rfl

theorem segmentOf_lt (a : Addr) : segmentOf a < 32 := by
  have := a.isLt
  unfold segmentOf
  omega

theorem segmentOf_of_top {a : Addr} (ha : 63488 ≤ a.toNat) : segmentOf a = 31 := by
  have := a.isLt
  unfold segmentOf
  omega

theorem State.readLegal_iff (s : State) (a : Addr) (p : Byte) :
    s.readLegal a p = true ↔ s.superuser p = true ∨ (s.legality p).getLsbD (segmentOf a) = true :=
  Bool.or_eq_true_iff

/-- In segment 31 the bitmap's bit is the superuser bit itself. -/
theorem State.readLegal_of_top (s : State) {a : Addr} (p : Byte) (ha : 63488 ≤ a.toNat) :
    s.readLegal a p = s.superuser p := by
  rw [State.readLegal, segmentOf_of_top ha]
  exact Bool.or_self _

/-- Settles O29: the legality word's bits are bits of the entry's bytes. -/
theorem readLegality : Obligations.ReadLegality := by
  refine fun s a p => ⟨?_, fun ha => by rw [s.readLegal_of_top p ha]⟩
  rw [s.readLegal_iff, s.superuser_eq_bit, State.legality, Memory.read32_bit _ _ (segmentOf_lt a)]
  rfl

theorem State.writeLegal_of_superuser {s : State} {p : Byte} (hs : s.superuser p = true) (ea pa : Addr) :
    s.writeLegal ea pa p = true := by
  rw [State.writeLegal, hs, Bool.true_or]

/-- Without the superuser bit, writing needs what reading needs and an address outside the tail. -/
theorem State.writeLegal_iff {s : State} {p : Byte} (hs : s.superuser p = false) (ea pa : Addr) :
    s.writeLegal ea pa p = true ↔ s.readLegal ea p = true ∧ segmentOffset pa < 2016 := by
  simp [State.writeLegal, State.readLegal, hs]

/-- Settles O30; in segment 31 not even reading is legal without the superuser bit. -/
theorem writeLegality : Obligations.WriteLegality := by
  refine fun s ea pa p => ⟨fun hs => State.writeLegal_of_superuser hs ea pa, fun hs => ⟨State.writeLegal_iff hs ea pa,
    fun htop => ?_⟩⟩
  rw [← Bool.not_eq_true, State.writeLegal_iff hs, s.readLegal_of_top p htop, hs]
  simp

/-! ### The step from a running state (R106, R108) -/

theorem step_of_exec {s u : State} (hf : s.fetches) (h : exec (decode s.cfg s.fetch) s = .next u) :
    step s = .next (u.endCycle s.fetch.op) := by
  obtain ⟨hr, hl⟩ := hf
  simp only [step, hr, hl, h, ↓reduceIte]

theorem step_of_illegal_fetch {s : State} (hr : s.run = .running) (hl : s.readLegal s.pc s.cur = false) :
    step s = .next s.fetchFault := by
  simp [step, hr, hl]

/-- Opcode 0 is `hlt`, so the cycle of any other instruction does not halt. -/
theorem op_ne_zero_of_decode_ne_hlt {c : Config} {b : InstrBytes} (h : decode c b ≠ .hlt) : b.op ≠ 0#8 := by
  intro h0
  exact h (by simp [decode, mnemonicOf, h0])

/-! ### Legal stores (R126, R127, R128) -/

theorem view8_of_lt {r : Byte} (h : r.toNat < 32) : view8 r = some ⟨r.toNat, h⟩ := view8_eq_some.mpr rfl
theorem view16_of_lt {r : Byte} (h : r.toNat < 16) : view16 r = some ⟨r.toNat, h⟩ := view16_eq_some.mpr rfl
theorem view32_of_lt {r : Byte} (h : r.toNat < 8) : view32 r = some ⟨r.toNat, h⟩ := view32_eq_some.mpr rfl

section
variable {s : State} {r b k : Byte} (hb : b.toNat < 16)
  (legal : s.writeLegal (s.effAddr ⟨b.toNat, hb⟩ k) (s.preAddr ⟨b.toNat, hb⟩ k) s.cur = true)
include legal

theorem State.checkedStore_legal (f : Addr → Memory) :
    s.checkedStore ⟨b.toNat, hb⟩ k f = s.withMem (f (s.effAddr ⟨b.toNat, hb⟩ k)) :=
  if_pos legal

theorem exec_s08_legal (hr : r.toNat < 32) :
    exec (.s08 r b k) s = .next (s.withMem (s.mem.write (s.effAddr ⟨b.toNat, hb⟩ k) (s.x8 ⟨r.toNat, hr⟩))) := by
  rw [exec_s08, execS08, view8_of_lt hr, view16_of_lt hb, withRegs,
    State.checkedStore_legal hb legal]

theorem exec_s16_legal (hr : r.toNat < 16) :
    exec (.s16 r b k) s = .next (s.withMem (s.mem.write16 (s.effAddr ⟨b.toNat, hb⟩ k) (s.x16 ⟨r.toNat, hr⟩))) := by
  rw [exec_s16, execS16, view16_of_lt hr, view16_of_lt hb, withRegs,
    State.checkedStore_legal hb legal]

theorem exec_s32_legal (hr : r.toNat < 8) :
    exec (.s32 r b k) s = .next (s.withMem (s.mem.write32 (s.effAddr ⟨b.toNat, hb⟩ k) (s.x32 ⟨r.toNat, hr⟩))) := by
  rw [exec_s32, execS32, view32_of_lt hr, view16_of_lt hb, withRegs,
    State.checkedStore_legal hb legal]

end

/-! ### The byte a store puts at each of its addresses -/

/-- Byte `d` of a two-byte register is arena byte `2i + d` (R20). -/
theorem readX16_byte (A : Arena) {i : Fin 16} {j : Fin 32} {d : Nat} (hd : d < 2) (hj : j.val = 2 * i.val + d) :
    (readX16 A i).extractLsb' (8 * d) 8 = readX8 A j := by
  rw [readX16_eq]
  obtain rfl | rfl : d = 0 ∨ d = 1 := by omega
  · exact (extract_append16_lo _ _).trans (congrArg (readX8 A) (Fin.ext hj.symm))
  · exact (extract_append16_hi _ _).trans (congrArg (readX8 A) (Fin.ext hj.symm))

/-- Byte `d` of four appended bytes, the last one at place 0. -/
theorem extract_append32_byte (b : Fin 4 → Byte) :
    ∀ d : Fin 4, (b 3 ++ (b 2 ++ (b 1 ++ b 0)) : Word).extractLsb' (8 * d.val) 8 = b d
  | 0 => by
    rw [BitVec.extractLsb'_append_eq_of_add_le (by decide), BitVec.extractLsb'_append_eq_of_add_le (by decide)]
    exact extract_append16_lo _ _
  | 1 => by
    rw [BitVec.extractLsb'_append_eq_of_add_le (by decide), BitVec.extractLsb'_append_eq_of_add_le (by decide)]
    exact extract_append16_hi _ _
  | 2 => by
    rw [BitVec.extractLsb'_append_eq_of_add_le (by decide), BitVec.extractLsb'_append_eq_of_le (by decide)]
    exact BitVec.extractLsb'_eq_self
  | 3 => by
    rw [BitVec.extractLsb'_append_eq_of_le (by decide)]
    exact BitVec.extractLsb'_eq_self

/-- Byte `d` of a four-byte register is arena byte `4i + d` (R20). -/
theorem readX32_byte (A : Arena) {i : Fin 8} {j : Fin 32} {d : Nat} (hd : d < 4) (hj : j.val = 4 * i.val + d) :
    (readX32 A i).extractLsb' (8 * d) 8 = readX8 A j :=
  (extract_append32_byte (fun d => readX8 A ⟨4 * i.val + d.val, by omega⟩) ⟨d, hd⟩).trans
    (congrArg (readX8 A) (Fin.ext hj.symm))

/-- `i` is the store of `width` bytes of register `r` at base `b` and offset `k`. -/
def IsStore (i : Instr) (r b k : Byte) (width : Nat) : Prop :=
  (i = .s08 r b k ∧ width = 1) ∨ (i = .s16 r b k ∧ width = 2) ∨ (i = .s32 r b k ∧ width = 4)

theorem IsStore.ne_hlt {i : Instr} {r b k : Byte} {width : Nat} (h : IsStore i r b k width) : i ≠ .hlt := by
  rcases h with ⟨rfl, -⟩ | ⟨rfl, -⟩ | ⟨rfl, -⟩ <;> exact Instr.noConfusion

/-- A legal store writes memory alone, and puts byte `d` of its register at distance `d` from its effective address. -/
theorem IsStore.exec_legal {i : Instr} {r b k : Byte} {width : Nat} {s : State} (h : IsStore i r b k width)
    (hview : width * r.toNat + width ≤ 32) (hb : b.toNat < 16)
    (legal : s.writeLegal (s.effAddr ⟨b.toNat, hb⟩ k) (s.preAddr ⟨b.toNat, hb⟩ k) s.cur = true) :
    ∃ m, exec i s = .next (s.withMem m) ∧ ∀ (d : Addr) (j : Fin 32), d.toNat < width →
      j.val = width * r.toNat + d.toNat → m.read (s.effAddr ⟨b.toNat, hb⟩ k + d) = s.x8 j := by
  rcases h with ⟨rfl, rfl⟩ | ⟨rfl, rfl⟩ | ⟨rfl, rfl⟩
  · refine ⟨_, exec_s08_legal hb legal (by omega), fun d j hd hj => ?_⟩
    obtain rfl : d = 0#16 := by bv_omega
    have hjr : (⟨r.toNat, by omega⟩ : Fin 32) = j := Fin.ext (by simpa using hj.symm)
    rw [BitVec.add_zero, Memory.read_write_self, hjr]
  · refine ⟨_, exec_s16_legal hb legal (by omega), fun d j hd hj => ?_⟩
    rw [Memory.read_write16_distance, if_pos hd]
    exact readX16_byte s.arena hd hj
  · refine ⟨_, exec_s32_legal hb legal (by omega), fun d j hd hj => ?_⟩
    rw [Memory.read_write32_distance, if_pos hd]
    exact readX32_byte s.arena hd hj

/-! ### A store to the current process (R62, R176, R195) -/

/-- The cycle of a store ends Running at pc + 4, with the memory its execute phase left but for the console flag. -/
theorem step_of_store {s : State} {m : Memory} (hf : s.fetches) (hne : decode s.cfg s.fetch ≠ .hlt)
    (h : exec (decode s.cfg s.fetch) s = .next (s.withMem m)) :
    ∃ t, step s = .next t ∧ t.run = .running ∧ t.pc = s.pc + 4#16 ∧ t.cur = m.read 1120#16 := by
  refine ⟨_, step_of_exec hf h, ?_, State.endCycle_pc _ _, State.endCycle_read_of_ne _ _ (by decide)⟩
  rw [State.endCycle_run, if_neg (op_ne_zero_of_decode_ne_hlt hne)]
  exact hf.1

/-- Settles O24: the poll leaves the stored byte alone, and every later check and translation reads it as `cur`. -/
theorem storeToCurActsAtNextFetch : Obligations.StoreToCurActsAtNextFetch := by
  intro s r b k width hb hf hstore hview legal hcover
  replace hstore : IsStore (decode s.cfg s.fetch) r b k width := hstore
  obtain ⟨m, hexec, hbytes⟩ := hstore.exec_legal hview hb legal
  obtain ⟨t, hstep, hrun, hpc, hcur⟩ := step_of_store hf hstore.ne_hlt hexec
  obtain ⟨j, hplace⟩ : ∃ j : Fin 32, j.val = width * r.toNat + (1120#16 - s.effAddr ⟨b.toNat, hb⟩ k).toNat :=
    ⟨⟨_, by omega⟩, rfl⟩
  have hj : t.cur = s.x8 j := by
    rw [hcur, ← hbytes _ j hcover hplace, add_sub_cancel]
  refine ⟨t, j, hstep, hrun, hpc, hplace, hj, fun b' k' => ?_, fun hl => ?_, fun hl => ?_⟩
  · rw [State.effAddr, hj]
  · exact ⟨hrun, hj ▸ hl⟩
  · refine ⟨t.fetchFault, step_of_illegal_fetch hrun (hj ▸ hl), ?_, rfl⟩
    rw [State.fetchFault_run, hpc]

end Sys2Proof.Machine
end

section
/-! PROOFS. Family spec/30_encoding.md: the opcode map and its inverse, the decoder and the encoder row by row, the
assembler's tokens, packed fields and lines, and string data. -/

namespace Sys2Proof

/-! ### The opcode map and its inverse (R82, R84) -/

theorem Mnemonic.mem_all (m : Mnemonic) : m ∈ Mnemonic.all := by
  cases m <;> decide

/-- An admissible table holds each mnemonic but `hlt` and `nop`, and each once. -/
theorem Config.wf_iff {c : Config} :
    c.wf = true ↔ c.opcodes.toList.Nodup ∧ ∀ m, m ∈ c.opcodes.toList ↔ m ≠ .hlt ∧ m ≠ .nop := by
  have hmem : ∀ m : Mnemonic, c.opcodes.toList.contains m = (m != .hlt && m != .nop) ↔
      (m ∈ c.opcodes.toList ↔ m ≠ .hlt ∧ m ≠ .nop) := fun m => by
    rw [Bool.eq_iff_iff, List.contains_iff_mem, Bool.and_eq_true, bne_iff_ne, bne_iff_ne]
  simp only [Config.wf, Bool.and_eq_true, decide_eq_true_eq, List.all_eq_true, beq_iff_eq, Mnemonic.mem_all, forall_const,
    hmem]

@[simp] theorem opcodeOf_hlt (c : Config) : opcodeOf c .hlt = 0#8 := rfl
@[simp] theorem opcodeOf_nop (c : Config) : opcodeOf c .nop = 64#8 := rfl

/-- The opcode of a mnemonic of the table is one more than its place there. -/
theorem opcodeOf_of_ne (c : Config) {m : Mnemonic} (hh : m ≠ .hlt) (hn : m ≠ .nop) :
    opcodeOf c m = BitVec.ofNat 8 (c.opcodes.toList.idxOf m + 1) := by
  cases m with
  | hlt => exact absurd rfl hh
  | nop => exact absurd rfl hn
  | _ => rfl

/-- Every opcode but 0 is looked up in the table, and one past its end is the no-op. -/
theorem mnemonicOf_of_ne_zero (c : Config) {op : Byte} (h : op ≠ 0#8) :
    mnemonicOf c op = (c.opcodes.toList[op.toNat - 1]?).getD .nop := by
  rw [mnemonicOf, if_neg h, Vector.getElem?_toList]

theorem mnemonicOf_of_ge (c : Config) {op : Byte} (h : 22 ≤ op.toNat) : mnemonicOf c op = .nop := by
  have hpast : c.opcodes.toList[op.toNat - 1]? = none := List.getElem?_eq_none (by rw [Vector.length_toList]; omega)
  rw [mnemonicOf_of_ne_zero c (by bv_omega), hpast, Option.getD_none]

section
variable {c : Config} (hc : c.wf = true)
include hc

/-- The opcodes of the table's mnemonics, as numbers. -/
theorem opcodeOf_toNat {m : Mnemonic} (hh : m ≠ .hlt) (hn : m ≠ .nop) :
    (opcodeOf c m).toNat = c.opcodes.toList.idxOf m + 1 ∧ c.opcodes.toList.idxOf m < 21 := by
  have hlt : c.opcodes.toList.idxOf m < 21 := by
    simpa using List.idxOf_lt_length_of_mem (((Config.wf_iff.mp hc).2 m).mpr ⟨hh, hn⟩)
  refine ⟨?_, hlt⟩
  rw [opcodeOf_of_ne c hh hn, BitVec.toNat_ofNat]
  omega

theorem opcodeOf_le {m : Mnemonic} (hn : m ≠ .nop) : (opcodeOf c m).toNat ≤ 21 := by
  by_cases hh : m = .hlt
  · simp [hh]
  · have := opcodeOf_toNat hc hh hn
    omega

/-- A mnemonic's opcode selects its own row. -/
theorem mnemonicOf_opcodeOf (m : Mnemonic) : mnemonicOf c (opcodeOf c m) = m := by
  by_cases hh : m = .hlt
  · rw [hh]
    rfl
  by_cases hn : m = .nop
  · rw [hn]
    exact mnemonicOf_of_ge c (show 22 ≤ (64#8).toNat by decide)
  · have hplace := (opcodeOf_toNat hc hh hn).1
    have hm := ((Config.wf_iff.mp hc).2 m).mpr ⟨hh, hn⟩
    rw [mnemonicOf_of_ne_zero c (by bv_omega), hplace, Nat.add_sub_cancel, List.getElem?_idxOf hm, Option.getD_some]

/-- A defined opcode is the one of the mnemonic whose row it selects. -/
theorem opcodeOf_mnemonicOf {op : Byte} (h : op.toNat < 22) : opcodeOf c (mnemonicOf c op) = op := by
  by_cases h0 : op = 0#8
  · rw [h0]
    rfl
  · obtain ⟨hnodup, hmem⟩ := Config.wf_iff.mp hc
    have hidx : op.toNat - 1 < c.opcodes.toList.length := by
      rw [Vector.length_toList]
      bv_omega
    have hrow : mnemonicOf c op = c.opcodes.toList[op.toNat - 1] := by
      rw [mnemonicOf_of_ne_zero c h0, List.getElem?_eq_getElem hidx, Option.getD_some]
    obtain ⟨hh, hn⟩ := (hmem _).mp (List.getElem_mem hidx)
    rw [hrow, opcodeOf_of_ne c hh hn, hnodup.idxOf_getElem, Nat.sub_add_cancel (by bv_omega), BitVec.ofNat_toNat,
      BitVec.setWidth_eq]

/-- The no-op is the row of the undefined opcodes alone. -/
theorem mnemonicOf_eq_nop_iff {op : Byte} : mnemonicOf c op = .nop ↔ 22 ≤ op.toNat := by
  refine ⟨fun h => Nat.le_of_not_lt fun hlt => ?_, mnemonicOf_of_ge c⟩
  have hop := opcodeOf_mnemonicOf hc hlt
  rw [h, opcodeOf_nop] at hop
  bv_omega

/-- A defined row is selected by its mnemonic's opcode alone. -/
theorem mnemonicOf_eq_iff {m : Mnemonic} (hn : m ≠ .nop) {op : Byte} : mnemonicOf c op = m ↔ op = opcodeOf c m := by
  refine ⟨fun h => ?_, fun h => h ▸ mnemonicOf_opcodeOf hc m⟩
  have hdef : op.toNat < 22 := Nat.lt_of_not_le fun hge => hn (h ▸ mnemonicOf_of_ge c hge)
  rw [← h, opcodeOf_mnemonicOf hc hdef]

end

/-- Settles O3: `mnemonicOf` gives each value of 0..21 its mnemonic. -/
theorem opcodesOccupyZeroToTwentyOne : Obligations.OpcodesOccupyZeroToTwentyOne := by
  intro c hc
  refine ⟨rfl, rfl, fun m hn => opcodeOf_le hc hn, fun v hv => ⟨mnemonicOf c v, ?_, ?_, fun m' _ h => ?_⟩⟩
  · rw [Ne, mnemonicOf_eq_nop_iff hc]
    omega
  · exact opcodeOf_mnemonicOf hc (by omega)
  · rw [← h, mnemonicOf_opcodeOf hc]

/-! ### The decoder and the encoder (R78, R84, R98) -/

/-- The opcode alone selects the row. -/
@[simp] theorem mnemonic_decode (c : Config) (b : InstrBytes) : (decode c b).mnemonic = mnemonicOf c b.op := by
  rw [decode]
  cases mnemonicOf c b.op <;> rfl

theorem mnemonic_eq_nop_iff {i : Instr} : i.mnemonic = .nop ↔ i = .nop := by
  cases i <;> simp [Instr.mnemonic]

@[simp] theorem encode_op (c : Config) (i : Instr) : (encode c i).op = opcodeOf c i.mnemonic := by
  cases i <;> rfl

/-- Settles O1: the opcode selects the instruction's own row, which reads each field where the encoder put it. -/
theorem decodeEncodeAgree : Obligations.DecodeEncodeAgree := by
  intro c hc i
  rw [decode, encode_op, mnemonicOf_opcodeOf hc]
  cases i with
  | lim r v => exact congrArg (Instr.lim r) (Machine.append_extract16 v)
  | _ => rfl

/-- Settles O4: decoding selects the row of `mnemonicOf`. -/
theorem opcodeSelectsTheRule : Obligations.OpcodeSelectsTheRule := by
  intro c hc b
  refine ⟨fun m hn => ?_, ?_⟩
  · rw [mnemonic_decode, mnemonicOf_eq_iff hc hn]
  · rw [← mnemonic_eq_nop_iff, mnemonic_decode, mnemonicOf_eq_nop_iff hc]

/-- Settles O2, by evaluating the decoder on the seven words. -/
theorem referenceWordsDecode : Obligations.ReferenceWordsDecode := by
  refine ⟨?_, ?_, ?_, ?_, ?_, ?_, ?_⟩ <;> decide

end Sys2Proof

namespace Sys2Proof.Machine

/-! ### Rows by shape (R78, R85) -/

/-- Four bytes with 0 in the fields that a row of the shape ignores. -/
def clearIgnored (b : InstrBytes) : Shape → InstrBytes
  | .unary => ⟨b.op, 0#8, 0#8, 0#8⟩
  | .imm8x2 => ⟨b.op, b.a1, b.a2, 0#8⟩
  | .regImm16 | .reg2Imm8 | .reg3 => b

/-- The operands that a row of the shape reads from its three fields, in text order. -/
def fieldOperands (a : Byte × Byte × Byte) : Shape → List Operand
  | .unary => []
  | .regImm16 => [.reg a.1.toNat, .imm (imm16 a.2.1 a.2.2).toNat]
  | .reg2Imm8 => [.reg a.1.toNat, .reg a.2.1.toNat, .imm a.2.2.toNat]
  | .reg3 => [.reg a.1.toNat, .reg a.2.1.toNat, .reg a.2.2.toNat]
  | .imm8x2 => [.imm a.1.toNat, .imm a.2.1.toNat]

theorem mnemonicShape_eq_unary_iff {m : Mnemonic} : mnemonicShape m = .unary ↔ m = .hlt ∨ m = .nop := by
  cases m <;> simp [mnemonicShape]

theorem mnemonicShape_eq_imm8x2_iff {m : Mnemonic} : mnemonicShape m = .imm8x2 ↔ m = .int := by
  cases m <;> simp [mnemonicShape]

/-- `lim` alone has the shape with a 16-bit immediate (R95). -/
theorem immBits_eq (m : Mnemonic) : immBits m = if mnemonicShape m = .regImm16 then 16 else 8 := by
  cases m <;> rfl

/-- Encoding a decoded instruction writes its row's opcode and clears the fields that its shape ignores. -/
theorem encode_decode (c : Config) (b : InstrBytes) :
    encode c (decode c b)
      = clearIgnored { b with op := opcodeOf c (mnemonicOf c b.op) } (mnemonicShape (mnemonicOf c b.op)) := by
  rw [decode]
  cases mnemonicOf c b.op with
  | lim => simp [encode, clearIgnored, mnemonicShape, imm16, extract_append16_lo, extract_append16_hi]
  | _ => rfl

theorem encode_decode_of_lt {c : Config} (hc : c.wf = true) {b : InstrBytes} (h : b.op.toNat < 22) :
    encode c (decode c b) = clearIgnored b (mnemonicShape (mnemonicOf c b.op)) := by
  rw [encode_decode, opcodeOf_mnemonicOf hc h]

/-- The operands of a decoded instruction are the fields its shape reads. -/
theorem instrOperands_decode (c : Config) (b : InstrBytes) :
    instrOperands (decode c b) = fieldOperands (b.a1, b.a2, b.a3) (mnemonicShape (mnemonicOf c b.op)) := by
  rw [decode]
  cases mnemonicOf c b.op <;> rfl

/-- Settles O5: the shape of the selected row says which fields come back. -/
theorem encodeDecodeKeepsUsedFields : Obligations.EncodeDecodeKeepsUsedFields := by
  intro c hc b
  dsimp only
  split_ifs with hundef h0 hint
  · rw [encode_decode, mnemonicOf_of_ge c hundef]
    rfl
  · rw [encode_decode, h0]
    rfl
  · rw [encode_decode_of_lt hc (by omega), (mnemonicOf_eq_iff hc (by decide)).mpr hint]
    rfl
  · rw [encode_decode_of_lt hc (by omega)]
    cases hshape : mnemonicShape (mnemonicOf c b.op) with
    | unary =>
      rcases mnemonicShape_eq_unary_iff.mp hshape with h | h
      · exact absurd ((mnemonicOf_eq_iff hc (by decide)).mp h) h0
      · exact absurd ((mnemonicOf_eq_nop_iff hc).mp h) hundef
    | imm8x2 => exact absurd ((mnemonicOf_eq_iff hc (by decide)).mp (mnemonicShape_eq_imm8x2_iff.mp hshape)) hint
    | _ => rfl

/-! ### Splitting text (R89, R90) -/

theorem splitBytes_of_not_mem {sep : Byte} {p : List Byte} (h : sep ∉ p) : splitBytes sep p = [p] := by
  induction p with
  | nil => rfl
  | cons b p ih =>
    obtain ⟨hb, hp⟩ := not_or.mp (mt List.mem_cons.mpr h)
    simp [splitBytes, Ne.symm hb, ih hp]

theorem splitBytes_append {sep : Byte} {p : List Byte} (h : sep ∉ p) (rest : List Byte) :
    splitBytes sep (p ++ sep :: rest) = p :: splitBytes sep rest := by
  induction p with
  | nil => simp [splitBytes]
  | cons b p ih =>
    obtain ⟨hb, hp⟩ := not_or.mp (mt List.mem_cons.mpr h)
    simp [splitBytes, Ne.symm hb, ih hp]

/-- A first line's bytes come before the rest's, and the first error is the pass's (R89, R101). -/
theorem assemble_line_append (c : Config) {line : List Byte} (h : 10#8 ∉ line) (rest : List Byte) :
    assemble c (line ++ 10#8 :: rest) = (assembleLine c line).bind fun x => (assemble c rest).map (x ++ ·) := by
  rw [assemble, splitBytes_append h, assembleLines, assemble]
  cases assembleLine c line with
  | error e => rfl
  | ok x => cases assembleLines c (splitBytes 10#8 rest) <;> rfl

/-- Settles O54: the text splits at the newline after its first line. -/
theorem linesConcatenate : Obligations.LinesConcatenate := by
  intro c line rest hline
  rw [assemble_line_append c hline]
  refine ⟨fun x y hx hy => ?_, fun e he => ?_, fun x e hx he => ?_⟩
  · rw [hx, hy]
    rfl
  · rw [he]
    rfl
  · rw [hx, he]
    rfl

/-! ### Decimal text (R93, R94) -/

theorem digitValue_digit (n : Nat) : digitValue 10 (BitVec.ofNat 8 (48 + n % 10)) = some (n % 10) := by
  have hbyte : (BitVec.ofNat 8 (48 + n % 10)).toNat = 48 + n % 10 := by
    rw [BitVec.toNat_ofNat]
    omega
  rw [digitValue, hbyte, if_pos (by omega), Nat.add_sub_cancel_left]

/-- A decimal digit read after `acc`. -/
theorem digitsFrom_digit (acc n : Nat) (t : List Byte) :
    digitsFrom 10 acc (BitVec.ofNat 8 (48 + n % 10) :: t) = digitsFrom 10 (acc * 10 + n % 10) t := by
  simp only [digitsFrom, digitValue_digit]

/-- Reading decimal text from its most significant digit gives the number back. -/
theorem digitsFrom_decimalFrom {fuel n : Nat} (h : n < fuel) (acc : List Byte) :
    digitsFrom 10 0 (decimalFrom fuel n acc) = digitsFrom 10 n acc := by
  induction fuel generalizing n acc with
  | zero => omega
  | succ fuel ih =>
    simp only [decimalFrom]
    split
    · rw [digitsFrom_digit, show 0 * 10 + n % 10 = n by omega]
    · rw [ih (by omega), digitsFrom_digit, Nat.div_add_mod' n 10]

/-- Decimal text is made of digits. -/
theorem digitValue_isSome_of_mem_decimalFrom (fuel n : Nat) {acc : List Byte}
    (hacc : ∀ b ∈ acc, (digitValue 10 b).isSome) : ∀ b ∈ decimalFrom fuel n acc, (digitValue 10 b).isSome := by
  induction fuel generalizing n acc with
  | zero => exact hacc
  | succ fuel ih =>
    have hcons : ∀ b ∈ BitVec.ofNat 8 (48 + n % 10) :: acc, (digitValue 10 b).isSome :=
      List.forall_mem_cons.mpr ⟨by rw [digitValue_digit]; rfl, hacc⟩
    rw [decimalFrom]
    split
    · exact hcons
    · exact ih _ hcons

theorem not_mem_decimal {b : Byte} (hb : digitValue 10 b = none) (n : Nat) : b ∉ decimal n := by
  intro h
  have hdigit := digitValue_isSome_of_mem_decimalFrom _ n (List.forall_mem_nil _) b h
  rw [hb] at hdigit
  exact absurd hdigit (by decide)

theorem digitsFrom_decimal (n : Nat) : digitsFrom 10 0 (decimal n) = some n :=
  digitsFrom_decimalFrom (Nat.lt_succ_self n) []

/-- No text reads as 0 alone, and 0 has its digit. -/
theorem decimal_ne_nil (n : Nat) : decimal n ≠ [] := by
  intro h
  have hread := digitsFrom_decimal n
  rw [h] at hread
  obtain rfl : 0 = n := Option.some.inj hread
  exact absurd h (by decide)

theorem digits_of_ne_nil (base : Nat) {t : List Byte} (h : t ≠ []) : digits base t = digitsFrom base 0 t := by
  cases t with
  | nil => exact absurd rfl h
  | cons b t => rfl

theorem digits_decimal (n : Nat) : digits 10 (decimal n) = some n := by
  rw [digits_of_ne_nil 10 (decimal_ne_nil n), digitsFrom_decimal]

theorem signedDigits_decimal (n : Nat) : signedDigits (decimal n) = some (n : Int) := by
  have hread := digits_decimal n
  cases hd : decimal n with
  | nil => exact absurd hd (decimal_ne_nil n)
  | cons b t =>
    have hb : b ≠ 0x2d#8 := fun hb =>
      not_mem_decimal (b := 0x2d#8) (by decide) n (by rw [hd, hb]; exact List.mem_cons_self)
    rw [hd] at hread
    rw [signedDigits, if_neg hb, hread]
    rfl

theorem signedDigits_neg_decimal (n : Nat) : signedDigits (0x2d#8 :: decimal n) = some (-(n : Int)) := by
  rw [signedDigits, if_pos rfl, digits_decimal]
  rfl

/-! ### Operands as text (R90, R93, R94) -/

theorem parseOperand_operandText {o : Operand} (h : assemblerRange o) : parseOperand (operandText o) = .ok o := by
  match o with
  | .reg r =>
    have hr : r ≤ 31 := h
    simp [operandText, parseOperand, digits_decimal, registerToken, hr]
  | .imm (.ofNat n) => simp [operandText, parseOperand, signedDigits_decimal, immediateToken]
  | .imm (.negSucc n) => simp [operandText, parseOperand, signedDigits_neg_decimal, immediateToken, Int.negSucc_eq]

theorem space_not_mem_operandText (o : Operand) : 0x20#8 ∉ operandText o := by
  have hdec := not_mem_decimal (b := 0x20#8) (by decide)
  match o with
  | .reg r => simp [operandText, hdec]
  | .imm (.ofNat n) => simp [operandText, hdec]
  | .imm (.negSucc n) => simp [operandText, hdec]

theorem splitBytes_operandsText (o : Operand) (os : List Operand) :
    splitBytes 0x20#8 (operandText o ++ operandsText os) = (o :: os).map operandText := by
  induction os generalizing o with
  | nil => simpa [operandsText] using splitBytes_of_not_mem (space_not_mem_operandText o)
  | cons p os ih =>
    rw [operandsText, List.cons_append, splitBytes_append (space_not_mem_operandText o), ih p]
    rfl

theorem operandTokens_operandsText (os : List Operand) : operandTokens (operandsText os) = .ok (os.map operandText) := by
  cases os with
  | nil => rfl
  | cons o os => exact congrArg Except.ok (splitBytes_operandsText o os)

theorem parseOperands_map_operandText {os : List Operand} (h : ∀ o ∈ os, assemblerRange o) :
    parseOperands (os.map operandText) = .ok os := by
  induction os with
  | nil => rfl
  | cons o os ih =>
    obtain ⟨ho, hos⟩ := List.forall_mem_cons.mp h
    simp only [List.map_cons, parseOperands, parseOperand_operandText ho, ih hos]

/-! ### Instruction lines (R88, R90, R91) -/

theorem mnemonicText_length (m : Mnemonic) : (mnemonicText m).length = 3 := by
  cases m <;> rfl

theorem lookupMnemonic_mnemonicText (m : Mnemonic) : lookupMnemonic (mnemonicText m) = some m := by
  cases m <;> decide

/-- A written line assembles to its mnemonic's opcode and its packed operands. -/
theorem assembleInstr_lineText (c : Config) (m : Mnemonic) {ops : List Operand} (h : ∀ o ∈ ops, assemblerRange o) :
    assembleInstr c (lineText m ops)
      = (packOperands (mnemonicShape m) ops).map fun a => ⟨opcodeOf c m, a.1, a.2.1, a.2.2⟩ := by
  simp only [assembleInstr, lineText, List.take_left' (mnemonicText_length m), List.drop_left' (mnemonicText_length m),
    lookupMnemonic_mnemonicText, operandTokens_operandsText, parseOperands_map_operandText h]
  cases packOperands (mnemonicShape m) ops <;> rfl

/-! ### Strings (R99) -/

theorem stringBody_escape {t bs : List Byte} (x : Byte) (h : stringBody t = .ok bs) :
    stringBody (0x5c#8 :: x :: t) = .ok (escapeByte x :: bs) := by
  simp [stringBody, h]

theorem stringBody_plain {b : Byte} {t bs : List Byte} (hq : b ≠ 0x22#8) (hs : b ≠ 0x5c#8) (h : stringBody t = .ok bs) :
    stringBody (b :: t) = .ok (b :: bs) := by
  cases t with
  | nil => simp [stringBody] at h
  | cons x t => simp only [stringBody, if_neg hq, if_neg hs, h]

theorem stringBody_stringText (bs : List Byte) : stringBody (stringText bs ++ [0x22#8]) = .ok bs := by
  induction bs with
  | nil => rfl
  | cons b bs ih =>
    rw [stringText]
    split_ifs with hesc h0 hn
    · have hb : escapeByte b = b := by rcases hesc with rfl | rfl <;> rfl
      simpa [hb] using stringBody_escape b ih
    · simpa [escapeByte, h0] using stringBody_escape 0x30#8 ih
    · simpa [escapeByte, hn] using stringBody_escape 0x6e#8 ih
    · exact stringBody_plain (fun h => hesc (.inl h)) (fun h => hesc (.inr h)) ih

/-- Settles O53, by induction on the bytes: each comes back from the text written for it. -/
theorem stringDataEmitsItsBytes : Obligations.StringDataEmitsItsBytes := by
  intro c bs
  rw [assembleLine, if_pos rfl, stringBody_stringText]

/-! ### Packed immediates (R95, R96) -/

theorem ofInt_toNat (w : Nat) (v : Int) : ((BitVec.ofInt w v).toNat : Int) = v % 2 ^ w := by
  rw [BitVec.toNat_ofInt, Int.toNat_of_nonneg (Int.emod_nonneg v (by positivity)), Nat.cast_pow, Nat.cast_ofNat]

theorem ofInt_eq_iff (w : Nat) (u v : Int) : BitVec.ofInt w u = BitVec.ofInt w v ↔ u % 2 ^ w = v % 2 ^ w := by
  rw [← BitVec.toNat_inj, ← Nat.cast_inj (R := Int), ofInt_toNat, ofInt_toNat]

theorem packReg_toNat {r : Nat} (h : r ≤ 31) : (packReg r).toNat = r := by
  rw [packReg, BitVec.toNat_ofNat]
  omega

/-- A mnemonic is no string data: it does not begin with a quote. -/
theorem mnemonicText_head (m : Mnemonic) : ∃ b t, mnemonicText m = b :: t ∧ b ≠ 0x22#8 := by
  cases m <;> exact ⟨_, _, rfl, by decide⟩

theorem assembleLine_lineText (c : Config) (m : Mnemonic) (ops : List Operand) :
    assembleLine c (lineText m ops) = (assembleInstr c (lineText m ops)).map InstrBytes.toList := by
  obtain ⟨b, t, hm, hb⟩ := mnemonicText_head m
  rw [lineText, hm, List.cons_append, assembleLine, if_neg hb]
  cases assembleInstr c (b :: (t ++ operandsText ops)) <;> rfl

/-- Lines whose operands pack to the same fields assemble to the same bytes. -/
theorem assembleLine_congr (c : Config) (m : Mnemonic) {ops ops' : List Operand} (h : ∀ o ∈ ops, assemblerRange o)
    (h' : ∀ o ∈ ops', assemblerRange o)
    (hpack : packOperands (mnemonicShape m) ops = packOperands (mnemonicShape m) ops') :
    assembleLine c (lineText m ops) = assembleLine c (lineText m ops') := by
  rw [assembleLine_lineText, assembleLine_lineText, assembleInstr_lineText c m h, assembleInstr_lineText c m h', hpack]

/-- Settles O52: packing is reduction mod 2 to the field's width, and lines with equal fields assemble alike. -/
theorem truncationLaw : Obligations.TruncationLaw := by
  have h16 := ofInt_eq_iff 16
  have h8 := ofInt_eq_iff 8
  refine ⟨h16, h8, fun c => ?_, fun c => ?_⟩
  · have hpack : pack16 65537 = pack16 1 := (h16 _ _).mpr (by decide)
    exact assembleLine_congr c .lim (ops := [.reg 0, .imm 65537]) (ops' := [.reg 0, .imm 1])
      (by simp [assemblerRange]) (by simp [assemblerRange]) (by simp [mnemonicShape, packOperands, hpack])
  · have hpack : pack8 256 = pack8 0 := (h8 _ _).mpr (by decide)
    exact assembleLine_congr c .beq (ops := [.reg 0, .reg 1, .imm 256]) (ops' := [.reg 0, .reg 1, .imm 0])
      (by simp [assemblerRange]) (by simp [assemblerRange]) (by simp [mnemonicShape, packOperands, hpack])

/-! ### Assembled lines read back (R88) -/

theorem sameOperand_reg (m : Mnemonic) {r : Nat} (h : assemblerRange (.reg r)) :
    sameOperand m (.reg r) (.reg (packReg r).toNat) := (packReg_toNat h).symm

theorem sameOperand_imm8 {m : Mnemonic} (h : mnemonicShape m ≠ .regImm16) (v : Int) :
    sameOperand m (.imm v) (.imm (pack8 v).toNat) := by
  rw [sameOperand, immBits_eq, if_neg h, pack8, ofInt_toNat]

theorem sameOperand_imm16 {m : Mnemonic} (h : mnemonicShape m = .regImm16) (v : Int) :
    sameOperand m (.imm v) (.imm (pack16 v).toNat) := by
  rw [sameOperand, immBits_eq, if_pos h, pack16, ofInt_toNat]

/-- The packed fields of a shape read back as the operands they were packed from. -/
theorem fieldOperands_of_packOperands {m : Mnemonic} {sh : Shape} (hsh : mnemonicShape m = sh) {ops : List Operand}
    {a : Byte × Byte × Byte} (hr : ∀ o ∈ ops, assemblerRange o) (h : packOperands sh ops = .ok a) :
    List.Forall₂ (sameOperand m) ops (fieldOperands a sh) := by
  unfold packOperands at h
  split at h
  case h_1 =>
    cases h
    exact .nil
  case h_2 r v =>
    cases h
    have hv : sameOperand m (.imm v) (.imm (imm16 ((pack16 v).extractLsb' 0 8) ((pack16 v).extractLsb' 8 8)).toNat) := by
      rw [imm16, append_extract16]
      exact sameOperand_imm16 hsh v
    exact .cons (sameOperand_reg m (List.forall_mem_cons.mp hr).1) (.cons hv .nil)
  case h_3 r₁ r₂ v =>
    cases h
    obtain ⟨h₁, h₂, -⟩ := by simpa only [List.forall_mem_cons] using hr
    exact .cons (sameOperand_reg m h₁) (.cons (sameOperand_reg m h₂) (.cons (sameOperand_imm8 (by simp [hsh]) v) .nil))
  case h_4 d r₁ r₂ =>
    cases h
    obtain ⟨hd, h₁, h₂, -⟩ := by simpa only [List.forall_mem_cons] using hr
    exact .cons (sameOperand_reg m hd) (.cons (sameOperand_reg m h₁) (.cons (sameOperand_reg m h₂) .nil))
  case h_5 k f =>
    cases h
    have hm : mnemonicShape m ≠ .regImm16 := by simp [hsh]
    exact .cons (sameOperand_imm8 hm k) (.cons (sameOperand_imm8 hm f) .nil)
  case h_6 =>
    dsimp only at h
    split_ifs at h

/-- Settles O51: the line's text parses back to its operands, and the row its opcode selects reads each packed field. -/
theorem assembledLineDecodes : Obligations.AssembledLineDecodes := by
  intro c m ops a hc hr hpack
  refine ⟨⟨opcodeOf c m, a.1, a.2.1, a.2.2⟩, ?_, ?_, ?_⟩
  · rw [assembleInstr_lineText c m hr, hpack]
    rfl
  · rw [mnemonic_decode, mnemonicOf_opcodeOf hc]
  · rw [instrOperands_decode, mnemonicOf_opcodeOf hc]
    exact fieldOperands_of_packOperands rfl hr hpack

end Sys2Proof.Machine
end

section
/-! PROOFS. Family spec/40_cycle.md: what the end of a cycle leaves of the state its execute phase left, when a step stops,
cycles that do nothing else, cycles that trap, and the branch to itself. -/

namespace Sys2Proof.Machine

/-! ### The end of a cycle (R112, R113, R114) -/

/-- The console flag after any cycle's end. -/
@[simp] theorem State.endCycle_read_flag (u : State) (op : Byte) : (u.endCycle op).mem.read 1022#16 = 0#8 := by
  rw [State.endCycle_mem, State.poll_read, if_pos rfl]

/-- The end of a cycle sees the execute phase's state through the console port and pc alone. -/
theorem State.endCycle_frame (u : State) (op : Byte) :
    let t := u.endCycle op
    t.pc = u.pc + 4#16 ∧ t.arena = u.arena ∧ t.cfg = u.cfg ∧
      (∀ a, a ≠ 1022#16 → t.mem.read a = u.mem.read a) ∧ t.mem.read 1022#16 = 0#8 ∧
      t.out = if u.consoleFlag = 0#8 then u.out else u.out ++ [u.consoleData] :=
  ⟨u.endCycle_pc op, u.endCycle_arena op, u.endCycle_cfg op, fun _ => u.endCycle_read_of_ne op, u.endCycle_read_flag op,
    (u.endCycle_out op).trans u.poll_out⟩

/-- A cycle that does not halt and emits nothing moves pc alone. -/
theorem State.endCycle_of_flag_clear {u : State} {op : Byte} (hflag : u.consoleFlag = 0#8) (hop : op ≠ 0#8) :
    u.endCycle op = u.withPc (u.pc + 4#16) := by
  simp [State.endCycle, State.poll, hflag, hop]

section
variable (u : State) (op : Byte)

@[simp] theorem State.endCycle_cur : (u.endCycle op).cur = u.cur := u.endCycle_read_of_ne op (by decide)

@[simp] theorem State.endCycle_returnProcess : (u.endCycle op).returnProcess = u.returnProcess :=
  u.endCycle_read_of_ne op (by decide)

@[simp] theorem State.endCycle_returnAddress : (u.endCycle op).returnAddress = u.returnAddress :=
  Memory.read16_congr (u.endCycle_read_of_ne op (by decide)) (u.endCycle_read_of_ne op (by decide))

@[simp] theorem State.endCycle_requestedCode : (u.endCycle op).requestedCode = u.requestedCode :=
  u.endCycle_read_of_ne op (by decide)

end

/-- Settles O10: the execute phase left the run status alone, so the halt test decides it. -/
theorem cycleEnd : Obligations.CycleEnd := by
  intro s u hf h
  obtain ⟨hpc, harena, hcfg, hmem, hflag, hout⟩ := u.endCycle_frame s.fetch.op
  have hrun : u.run = .running := (exec_effect h).run.trans hf.1
  refine ⟨_, step_of_exec hf h, fun hne => ⟨hout.trans (if_neg hne), hflag⟩, fun h0 => ⟨hout.trans (if_pos h0), hflag⟩,
    hmem, hpc, harena, hcfg, fun hop => ?_, fun hop => ?_⟩
  · rw [State.endCycle_run, if_pos hop]
  · rw [State.endCycle_run, if_neg hop, hrun]

/-- Settles O15: a cycle that ran ended with its poll. -/
theorem consoleFlagClearAfterEveryCycle : Obligations.ConsoleFlagClearAfterEveryCycle := by
  intro s t hf h
  obtain ⟨hrun, hlegal⟩ := hf
  rcases step_next_cases h with ⟨hfinal, -⟩ | ⟨-, hillegal, -⟩ | ⟨-, -, u, -, rfl⟩
  · exact absurd hrun hfinal
  · exact absurd (hlegal.symm.trans hillegal) (by decide)
  · exact u.endCycle_read_flag _

/-! ### The outcomes of a step (R106, R108, R109) -/

theorem step_of_exec_fault {s : State} {f : Fault} (hf : s.fetches) (h : exec (decode s.cfg s.fetch) s = .fault f) :
    step s = .fault f := by
  obtain ⟨hr, hl⟩ := hf
  simp only [step, hr, hl, h, ↓reduceIte]

/-- Where no cycle runs, the step answers a next state: the fetch-faulted one, or the same final one. -/
theorem step_of_not_fetches {s : State} (hf : ¬s.fetches) : ∃ t, step s = .next t := by
  by_cases hr : s.run = .running
  · have hl : s.readLegal s.pc s.cur = false := Bool.eq_false_iff.mpr fun hl => hf ⟨hr, hl⟩
    exact ⟨_, step_of_illegal_fetch hr hl⟩
  · exact ⟨s, finalStatesStay s hr⟩

/-- A step stops at a fetched instruction that is not well-formed, and answers a next state everywhere else. -/
theorem step_stops_or_continues (s : State) :
    (s.fetches ∧ (decode s.cfg s.fetch).wellFormed s.cfg = false ∧
      step s = .fault (.registerIndex (decode s.cfg s.fetch))) ∨
    (¬(s.fetches ∧ (decode s.cfg s.fetch).wellFormed s.cfg = false) ∧ ∃ t, step s = .next t) := by
  by_cases hf : s.fetches
  · obtain ⟨hcompletes, hstops⟩ := exec_completes (decode s.cfg s.fetch) s
    cases hw : (decode s.cfg s.fetch).wellFormed s.cfg with
    | false => exact .inl ⟨hf, rfl, step_of_exec_fault hf (hstops hw)⟩
    | true =>
      obtain ⟨u, hu⟩ := hcompletes hw
      exact .inr ⟨by simp, _, step_of_exec hf hu⟩
  · exact .inr ⟨fun h => hf h.1, step_of_not_fetches hf⟩

/-- Settles O18: the two cases exclude each other, and neither is a refusal. -/
theorem stepOutcomes : Obligations.StepOutcomes := by
  intro s
  rcases step_stops_or_continues s with ⟨hf, hw, hs⟩ | ⟨hno, t, hs⟩
  · rw [hs]
    refine ⟨fun r => nofun, fun f => ⟨fun h => ?_, fun ⟨_, _, h⟩ => by rw [h]⟩⟩
    exact ⟨hf, hw, (Host.Outcome.fault.inj h).symm⟩
  · rw [hs]
    exact ⟨fun r => nofun, fun f => ⟨nofun, fun ⟨hf, hw, _⟩ => absurd ⟨hf, hw⟩ hno⟩⟩

/-- Settles O9. -/
theorem stepRunsDecodedInstruction : Obligations.StepRunsDecodedInstruction :=
  fun _ hf => ⟨rfl, fun _ => step_of_exec hf, fun _ => step_of_exec_fault hf⟩

/-- Settles O11, by what `State.fetchFault` leaves in each field. -/
theorem fetchFaultChangesNothingElse : Obligations.FetchFaultChangesNothingElse :=
  fun s hr hl => ⟨s.fetchFault, step_of_illegal_fetch hr hl, s.fetchFault_run, s.fetchFault_pc, s.fetchFault_mem,
    s.fetchFault_arena, s.fetchFault_out, s.fetchFault_cfg⟩

/-! ### Cycles whose execute phase does nothing (R115, R116) -/

theorem decode_of_op_zero (c : Config) {b : InstrBytes} (h : b.op = 0#8) : decode c b = .hlt := by
  simp [decode, mnemonicOf, h]

theorem decode_of_op_ge (c : Config) {b : InstrBytes} (h : 22 ≤ b.op.toNat) : decode c b = .nop := by
  simp only [decode, mnemonicOf_of_ge c h]

/-- Settles O13: only the cycle's end acts, and its halt test sees opcode 0. -/
theorem hltHaltsTheEngine : Obligations.HltHaltsTheEngine := by
  refine fun s => ⟨rfl, fun hf hop => ?_⟩
  have hexec : exec (decode s.cfg s.fetch) s = .next s := by rw [decode_of_op_zero _ hop]; rfl
  refine ⟨_, step_of_exec hf hexec, ?_, s.endCycle_frame _⟩
  rw [State.endCycle_run, if_pos hop]

/-- Settles O14: only the cycle's end acts, and the opcode is not 0. -/
theorem undefinedOpcodesAreNoOps : Obligations.UndefinedOpcodesAreNoOps := by
  refine fun s => ⟨rfl, fun hf hop => ?_⟩
  have hnop : decode s.cfg s.fetch = .nop := decode_of_op_ge _ hop
  have hexec : exec (decode s.cfg s.fetch) s = .next s := by rw [hnop]; rfl
  have hne : s.fetch.op ≠ 0#8 := op_ne_zero_of_decode_ne_hlt (by rw [hnop]; exact Instr.noConfusion)
  refine ⟨_, step_of_exec hf hexec, ?_, s.endCycle_frame _⟩
  rw [State.endCycle_run, if_neg hne, hf.1]

/-! ### Cycles whose execute phase traps (R111, R160, R166) -/

/-- The trap transfer is the form of the statements, where `o` is the offset mod 2^16. -/
theorem State.trapTransfer_trapTaken (s : State) (code : Byte) {o : Half} {off : Int}
    (ho : (o.toNat : Int) = off % 2 ^ 16) : TrapTaken s code off (s.trapTransfer code o) := by
  refine ⟨s.trapTransfer_returnProcess code o, ?_, s.trapTransfer_requestedCode code o, s.trapTransfer_cur code o,
    s.trapTransfer_pc code o, fun a => s.trapTransfer_frame code o, rfl, rfl, rfl, rfl⟩
  rw [State.trapTransfer_returnAddress, BitVec.toNat_add]
  omega

theorem State.softTrap_trapTaken (s : State) (code off : Byte) : TrapTaken s code off.toInt (s.softTrap code off) :=
  s.trapTransfer_trapTaken code (sext8_toNat off)

/-- A trap leaves the console port to the poll, and the cycle's increment lands on the handler. -/
theorem TrapTaken.endCycle {s u : State} {code : Byte} {off : Int} (h : TrapTaken (s.withArena u.arena) code off u)
    (op : Byte) :
    let t := u.endCycle op
    t.pc = s.handlerPointer ∧ t.cur = 0#8 ∧ t.returnProcess = s.cur ∧ t.returnAddress = u.returnAddress ∧
      t.requestedCode = code ∧ t.arena = u.arena ∧ t.mem.read 1022#16 = 0#8 ∧
      t.out = if s.consoleFlag = 0#8 then s.out else s.out ++ [s.consoleData] := by
  obtain ⟨hprocess, -, hcode, hcur, hpc, hframe, -, -, hout, -⟩ := h
  have hflag : u.consoleFlag = s.consoleFlag := hframe 1022#16 (by decide)
  have hdata : u.consoleData = s.consoleData := hframe 1023#16 (by decide)
  refine ⟨?_, (u.endCycle_cur op).trans hcur, (u.endCycle_returnProcess op).trans hprocess, u.endCycle_returnAddress op,
    (u.endCycle_requestedCode op).trans hcode, u.endCycle_arena op, u.endCycle_read_flag op, ?_⟩
  · rw [State.endCycle_pc, hpc, BitVec.sub_add_cancel]
    rfl
  · rw [State.endCycle_out, State.poll_out, hflag, hdata, hout]
    rfl

/-- Settles O48. -/
theorem trapCycleEntersHandler : Obligations.TrapCycleEntersHandler :=
  fun _ _ _ _ hf h htrap => ⟨_, step_of_exec hf h, htrap.endCycle _⟩

/-- Settles O49: `int` is the software trap, whatever the state. -/
theorem intCycleEntersHandler : Obligations.IntCycleEntersHandler := by
  intro s code off hf hint
  have htrap : TrapTaken s code off.toInt (s.softTrap code off) := s.softTrap_trapTaken code off
  have hexec : exec (decode s.cfg s.fetch) s = .next (s.softTrap code off) := by rw [hint]; rfl
  have hne : s.fetch.op ≠ 0#8 := op_ne_zero_of_decode_ne_hlt (by rw [hint]; exact Instr.noConfusion)
  have hrun : ((s.softTrap code off).endCycle s.fetch.op).run = .running := by
    rw [State.endCycle_run, if_neg hne]
    exact hf.1
  obtain ⟨hpc, hcur, hprocess, hreturn, hcode, harena, -, hout⟩ := TrapTaken.endCycle (s := s) htrap s.fetch.op
  obtain ⟨-, haddress, -⟩ := htrap
  exact ⟨_, step_of_exec hf hexec, hpc, hcur, hprocess, hreturn ▸ haddress, hcode, harena, hrun, hout⟩

/-! ### A taken branch to itself (R146, R151) -/

/-- A branch with offset 0 targets its own address. -/
theorem State.branchTarget_zero (s : State) : s.branchTarget 0#8 = s.pc := BitVec.add_zero s.pc

/-- The address of an instruction that was fetched is a legal target. -/
theorem State.fetches.checkedTransfer_self {s : State} (hf : s.fetches) : s.checkedTransfer s.pc = s.transferTo s.pc :=
  if_pos hf.2

/-- `i` is a branch on `r₁` and `r₂` with offset `k` that values `a` and `b` take. -/
def IsTakenBranch (i : Instr) (r₁ r₂ k : Byte) (a b : Nat) : Prop :=
  (i = .beq r₁ r₂ k ∧ a = b) ∨ (i = .bne r₁ r₂ k ∧ a ≠ b) ∨ (i = .blt r₁ r₂ k ∧ a < b) ∨ (i = .bgt r₁ r₂ k ∧ a > b)

theorem IsTakenBranch.ne_hlt {i : Instr} {r₁ r₂ k : Byte} {a b : Nat} (h : IsTakenBranch i r₁ r₂ k a b) : i ≠ .hlt := by
  rcases h with ⟨rfl, -⟩ | ⟨rfl, -⟩ | ⟨rfl, -⟩ | ⟨rfl, -⟩ <;> exact Instr.noConfusion

section
variable {s : State} {r₁ r₂ k : Byte} (h₁ : r₁.toNat < 16) (h₂ : r₂.toNat < 16)

theorem branch_taken {i : Instr} {cond : Half → Half → Bool}
    (hc : cond (s.x16 ⟨r₁.toNat, h₁⟩) (s.x16 ⟨r₂.toNat, h₂⟩) = true) :
    branch i r₁ r₂ k cond s = .next (s.checkedTransfer (s.branchTarget k)) := by
  rw [branch, view16_of_lt h₁, view16_of_lt h₂, withRegs, if_pos hc]

/-- All four branches, when taken, are the same checked transfer. -/
theorem IsTakenBranch.exec_eq {i : Instr}
    (h : IsTakenBranch i r₁ r₂ k (s.x16 ⟨r₁.toNat, h₁⟩).toNat (s.x16 ⟨r₂.toNat, h₂⟩).toNat) :
    exec i s = .next (s.checkedTransfer (s.branchTarget k)) := by
  rcases h with ⟨rfl, hc⟩ | ⟨rfl, hc⟩ | ⟨rfl, hc⟩ | ⟨rfl, hc⟩
  · exact branch_taken h₁ h₂ (beq_iff_eq.mpr (BitVec.eq_of_toNat_eq hc))
  · exact branch_taken h₁ h₂ (bne_iff_ne.mpr fun e => hc (congrArg BitVec.toNat e))
  · exact branch_taken h₁ h₂ (decide_eq_true hc)
  · exact branch_taken h₁ h₂ (decide_eq_true hc)

end

/-- Settles O46: the execute phase moves pc back by the 4 that the cycle's end adds; without a poll that is the same
state, a fixed point of `step`. -/
theorem branchToItselfRepeats : Obligations.BranchToItselfRepeats := by
  intro s r₁ r₂ h₁ h₂ hf hbranch
  replace hbranch : IsTakenBranch (decode s.cfg s.fetch) r₁ r₂ 0#8 (s.x16 ⟨r₁.toNat, h₁⟩).toNat
    (s.x16 ⟨r₂.toNat, h₂⟩).toNat := hbranch
  have hexec : exec (decode s.cfg s.fetch) s = .next (s.transferTo s.pc) := by
    rw [hbranch.exec_eq h₁ h₂, s.branchTarget_zero, hf.checkedTransfer_self]
  have hne : s.fetch.op ≠ 0#8 := op_ne_zero_of_decode_ne_hlt hbranch.ne_hlt
  have hstep := step_of_exec hf hexec
  have hback : s.pc - 4#16 + 4#16 = s.pc := BitVec.sub_add_cancel _ _
  obtain ⟨hpc, harena, -, hmem, hflag, hout⟩ := (s.transferTo s.pc).endCycle_frame s.fetch.op
  refine ⟨⟨_, hstep, hpc.trans hback, ?_, harena, hmem, hflag, hout⟩, fun hclear => ?_⟩
  · rw [State.endCycle_run, if_neg hne]
    exact hf.1
  · have hsame : (s.transferTo s.pc).endCycle s.fetch.op = s :=
      (State.endCycle_of_flag_clear (u := s.transferTo s.pc) hclear hne).trans (congrArg s.withPc hback)
    rw [hsame] at hstep
    exact ⟨hstep, runsForever_of_fixed hf.1 hstep⟩

end Sys2Proof.Machine
end

section
/-! PROOFS. Family spec/41_immediate.md: the encoding of a row, what a write through x16 leaves unchanged, and `lim`. -/

namespace Sys2Proof.Machine

/-! ### The encoding of a row (R78, R82, R84) -/

/-- The row that a mnemonic selects is the row its own opcode decodes to. -/
theorem Encoded.of_row {m : Mnemonic} {n : Byte} {i : Byte → Byte → Byte → Instr} (hn : opcodeOf .reference m = n)
    (hrow : ∀ (c : Config) (b : InstrBytes), mnemonicOf c b.op = m → decode c b = i b.a1 b.a2 b.a3) : Encoded m n i :=
  ⟨hn, fun c hc _ _ _ => hrow c _ (mnemonicOf_opcodeOf hc m)⟩

theorem decode_of_lim (c : Config) (b : InstrBytes) (h : mnemonicOf c b.op = .lim) :
    decode c b = .lim b.a1 (imm16 b.a2 b.a3) := by
  rw [decode, h]

/-- The immediate as the sum of R79. -/
theorem imm16_toNat (a₂ a₃ : Byte) : (imm16 a₂ a₃).toNat = a₂.toNat + 256 * a₃.toNat := toNat_append16 a₃ a₂

/-! ### The frame of a write through x16 (R11) -/

/-- The bytes that x16 register `i` does not cover. -/
theorem State.x8_setX16_of_ne (s : State) {i : Fin 16} {k : Fin 32} (v : Half) (h : k.val / 2 ≠ i.val) :
    (s.setX16 i v).x8 k = s.x8 k := by
  rw [State.x8, State.setX16_arena, readX8_writeX16_place, if_neg h, State.x8]

theorem State.sameMemory_setX16 (s : State) (i : Fin 16) (v : Half) : s.sameMemory (s.setX16 i v) := fun a => by
  rw [State.setX16_mem]

theorem State.sameControl_setX16 (s : State) (i : Fin 16) (v : Half) : s.sameControl (s.setX16 i v) :=
  ⟨s.setX16_pc i v, s.setX16_run i v, s.setX16_out i v, s.setX16_cfg i v⟩

/-! ### `lim` (R109, R119) -/

theorem exec_lim_in_view {r : Byte} (hr : r.toNat < 16) (v : Half) (s : State) :
    exec (.lim r v) s = .next (s.setX16 ⟨r.toNat, hr⟩ v) := by
  rw [exec_lim, execLim, view16_of_lt hr, withReg]

theorem exec_lim_out_of_view {r : Byte} (hr : 16 ≤ r.toNat) (v : Half) (s : State) :
    exec (.lim r v) s = .fault (.registerIndex (.lim r v)) := by
  obtain ⟨-, hstops⟩ := exec_completes (.lim r v) s
  have hview : validX16 r = false := decide_eq_false (by omega)
  exact hstops hview

/-- Settles O32: `lim` is one write through x16, or a stop. -/
theorem limLoadsImmediate : Obligations.LimLoadsImmediate := by
  refine ⟨.of_row (by decide) decode_of_lim, fun r lo hi s => ⟨fun hr => ?_, fun hr => exec_lim_out_of_view hr _ s⟩⟩
  refine ⟨_, exec_lim_in_view hr (imm16 lo hi) s, ?_, fun _ hk => s.x8_setX16_of_ne _ hk, s.sameMemory_setX16 _ _,
    s.sameControl_setX16 _ _⟩
  rw [State.x16_setX16_self, imm16_toNat]

end Sys2Proof.Machine
end

section
/-! PROOFS. Family spec/42_load_store.md: what a write through a view and a store of its width leave, the form of an
instruction with one checked access, and with it the three loads and the three stores. -/

namespace Sys2Proof.Machine

/-! ### Register writes of a load (R11, R121) -/

theorem State.x8_setX8_self (s : State) (i : Fin 32) (v : Byte) : (s.setX8 i v).x8 i = v :=
  readX8_writeX8_self s.arena i v

theorem State.x8_setX8_of_ne (s : State) {i j : Fin 32} (v : Byte) (h : j.val ≠ i.val) :
    (s.setX8 i v).x8 j = s.x8 j := by
  rw [State.x8, State.setX8_arena, readX8_writeX8, if_neg h, State.x8]

theorem State.x32_setX32_self (s : State) (i : Fin 8) (v : Word) : (s.setX32 i v).x32 i = v :=
  readX32_writeX32_self s.arena i v

/-- The bytes that x32 register `i` does not cover. -/
theorem State.x8_setX32_of_ne (s : State) {i : Fin 8} {j : Fin 32} (v : Word) (h : j.val / 4 ≠ i.val) :
    (s.setX32 i v).x8 j = s.x8 j := by
  rw [State.x8, State.setX32_arena, readX8_writeX32_place, if_neg h, State.x8]

/-- What a legal load leaves: `value` in the register that `get` reads, and nothing else changed but arena bytes that
are not `kept`. -/
def Loads {α : Type} (s : State) (get : State → α) (value : α) (kept : Fin 32 → Prop) (t : State) : Prop :=
  get t = value ∧ (∀ j, kept j → t.x8 j = s.x8 j) ∧ s.sameMemory t ∧ s.sameControl t

theorem State.loads_setX8 (s : State) (i : Fin 32) (v : Byte) :
    Loads s (·.x8 i) v (·.val ≠ i.val) (s.setX8 i v) :=
  ⟨s.x8_setX8_self i v, fun _ => s.x8_setX8_of_ne v, fun _ => rfl, rfl, rfl, rfl, rfl⟩

theorem State.loads_setX16 (s : State) (i : Fin 16) (v : Half) :
    Loads s (·.x16 i) v (·.val / 2 ≠ i.val) (s.setX16 i v) :=
  ⟨s.x16_setX16_self i v, fun _ => s.x8_setX16_of_ne v, s.sameMemory_setX16 i v, s.sameControl_setX16 i v⟩

theorem State.loads_setX32 (s : State) (i : Fin 8) (v : Word) :
    Loads s (·.x32 i) v (·.val / 4 ≠ i.val) (s.setX32 i v) :=
  ⟨s.x32_setX32_self i v, fun _ => s.x8_setX32_of_ne v, fun _ => rfl, rfl, rfl, rfl, rfl⟩

/-! ### Memory writes of a store (R12) -/

/-- The two addresses differ mod 2^16, so the second byte does not overwrite the first. -/
@[simp] theorem Memory.read16_write16_self (m : Memory) (a : Addr) (v : Half) : (m.write16 a v).read16 a = v := by
  simpa [Memory.read16, Memory.read_write16] using append_extract16 v

@[simp] theorem Memory.read32_write32_self (m : Memory) (a : Addr) (v : Word) : (m.write32 a v).read32 a = v := by
  simpa [Memory.read32, Memory.read_write32] using append_extract32 v

theorem Memory.read_write16_of_far (m : Memory) {a x : Addr} (v : Half) (h : 2 ≤ (x - a).toNat) :
    (m.write16 a v).read x = m.read x := by
  have hbyte := m.read_write16_distance a (x - a) v
  rwa [add_sub_cancel, if_neg (Nat.not_lt.mpr h)] at hbyte

theorem Memory.read_write32_of_far (m : Memory) {a x : Addr} (v : Word) (h : 4 ≤ (x - a).toNat) :
    (m.write32 a v).read x = m.read x := by
  have hbyte := m.read_write32_distance a (x - a) v
  rwa [add_sub_cancel, if_neg (Nat.not_lt.mpr h)] at hbyte

/-- What a legal store leaves: `value` where `get` reads memory, and nothing else changed but bytes of memory that are
not `kept`. -/
def Stores {α : Type} (s : State) (get : Memory → α) (value : α) (kept : Addr → Prop) (t : State) : Prop :=
  get t.mem = value ∧ (∀ a, kept a → t.mem.read a = s.mem.read a) ∧ t.arena = s.arena ∧ s.sameControl t

theorem State.stores_withMem {α : Type} (s : State) {m : Memory} {get : Memory → α} {value : α} {kept : Addr → Prop}
    (hget : get m = value) (hkept : ∀ a, kept a → m.read a = s.mem.read a) : Stores s get value kept (s.withMem m) :=
  ⟨hget, hkept, rfl, rfl, rfl, rfl, rfl⟩

theorem State.stores_write (s : State) (ea : Addr) (v : Byte) :
    Stores s (·.read ea) v (· ≠ ea) (s.withMem (s.mem.write ea v)) :=
  s.stores_withMem (Memory.read_write_self _ ea v) fun _ => Memory.read_write_of_ne _ v

theorem State.stores_write16 (s : State) (ea : Addr) (v : Half) :
    Stores s (·.read16 ea) v (fun a => 2 ≤ (a - ea).toNat) (s.withMem (s.mem.write16 ea v)) :=
  s.stores_withMem (Memory.read16_write16_self _ ea v) fun _ => Memory.read_write16_of_far _ v

theorem State.stores_write32 (s : State) (ea : Addr) (v : Word) :
    Stores s (·.read32 ea) v (fun a => 4 ≤ (a - ea).toNat) (s.withMem (s.mem.write32 ea v)) :=
  s.stores_withMem (Memory.read32_write32_self _ ea v) fun _ => Memory.read_write32_of_far _ v

/-! ### Two register operands by the numbers of their fields (R21, R109) -/

section
variable {n m : Nat} {i : Instr} {x y : Byte} {r₁ : Option (Fin n)} {r₂ : Option (Fin m)} {body : Fin n → Fin m → State}
  (h₁ : ∀ a, r₁ = some a ↔ x.toNat = a.val) (h₂ : ∀ a, r₂ = some a ↔ y.toNat = a.val)
include h₁ h₂

theorem withRegs_in_view (hx : x.toNat < n) (hy : y.toNat < m) :
    withRegs i r₁ r₂ body = .next (body ⟨x.toNat, hx⟩ ⟨y.toNat, hy⟩) := by
  rw [(h₁ ⟨x.toNat, hx⟩).mpr rfl, (h₂ ⟨y.toNat, hy⟩).mpr rfl, withRegs]

theorem withRegs_out_of_view (h : ¬(x.toNat < n ∧ y.toNat < m)) :
    withRegs i r₁ r₂ body = .fault (.registerIndex i) := by
  cases r₁ with
  | none => rfl
  | some a =>
    cases r₂ with
    | none => rfl
    | some b =>
      have hx : x.toNat = a.val := (h₁ a).mp rfl
      have hy : y.toNat = b.val := (h₂ b).mp rfl
      exact absurd ⟨hx ▸ a.isLt, hy ▸ b.isLt⟩ h

end

/-! ### The form of an instruction with one checked access (R65, R67, R109) -/

/-- `MemProtTrap` in the form of the statements (R162). -/
theorem State.memProtTrap_trapTaken (s : State) : TrapTaken s 0#8 4 s.memProtTrap :=
  s.trapTransfer_trapTaken 0#8 (by decide)

/-- An instruction with data register `x` of a view of `n` registers and base `y`: with both in view, a legal access
leaves what `done` says and an illegal one is the memory-protection trap; else the instruction stops. -/
def AccessForm {n : Nat} (i : Instr) (x y : Byte) (s : State) (legal : Fin 16 → Bool)
    (done : Fin n → Fin 16 → State → Prop) : Prop :=
  (∀ (hx : x.toNat < n) (hy : y.toNat < 16),
    (legal ⟨y.toNat, hy⟩ = true → ∃ t, exec i s = .next t ∧ done ⟨x.toNat, hx⟩ ⟨y.toNat, hy⟩ t) ∧
    (legal ⟨y.toNat, hy⟩ = false → ∃ t, exec i s = .next t ∧ TrapTaken s 0#8 4 t)) ∧
  (¬(x.toNat < n ∧ y.toNat < 16) → exec i s = .fault (.registerIndex i))

section
variable {n : Nat} {i : Instr} {x y k : Byte} {s : State} {r : Option (Fin n)}
  (hr : ∀ a, r = some a ↔ x.toNat = a.val)
include hr

theorem AccessForm.of_withRegs {body access : Fin n → Fin 16 → State} {legal : Fin 16 → Bool}
    {done : Fin n → Fin 16 → State → Prop} (hexec : exec i s = withRegs i r (view16 y) body)
    (hbody : ∀ d b, (legal b = true ∧ body d b = access d b) ∨ (legal b = false ∧ body d b = s.memProtTrap))
    (hdone : ∀ d b, done d b (access d b)) : AccessForm i x y s legal done := by
  have hbase : ∀ a, view16 y = some a ↔ y.toNat = a.val := fun _ => view16_eq_some
  refine ⟨fun hx hy => ?_, fun hout => hexec.trans (withRegs_out_of_view hr hbase hout)⟩
  rw [hexec, withRegs_in_view hr hbase hx hy]
  rcases hbody ⟨x.toNat, hx⟩ ⟨y.toNat, hy⟩ with ⟨hlegal, h⟩ | ⟨hillegal, h⟩
  · exact ⟨fun _ => ⟨_, congrArg _ h, hdone _ _⟩, fun hf => absurd (hlegal.symm.trans hf) (by decide)⟩
  · exact ⟨fun ht => absurd (ht.symm.trans hillegal) (by decide), fun _ => ⟨_, congrArg _ h, s.memProtTrap_trapTaken⟩⟩

/-- A load whose access leaves what `done` says of its register and its effective address. -/
theorem AccessForm.of_load {access : Fin n → Addr → State} {done : Fin n → Addr → State → Prop}
    (hexec : exec i s = withRegs i r (view16 y) fun d b => s.checkedLoad b k (access d))
    (hdone : ∀ d ea, done d ea (access d ea)) :
    AccessForm i x y s (fun b => s.readLegal (s.effAddr b k) s.cur) fun d b => done d (s.effAddr b k) :=
  .of_withRegs hr hexec (fun d b => s.checkedLoad_eq b k (access d)) fun d _ => hdone d _

/-- A store whose access leaves what `done` says of its register and its effective address. -/
theorem AccessForm.of_store {access : Fin n → Addr → Memory} {done : Fin n → Addr → State → Prop}
    (hexec : exec i s = withRegs i r (view16 y) fun d b => s.checkedStore b k (access d))
    (hdone : ∀ d ea, done d ea (s.withMem (access d ea))) :
    AccessForm i x y s (fun b => s.writeLegal (s.effAddr b k) (s.preAddr b k) s.cur)
      fun d b => done d (s.effAddr b k) :=
  .of_withRegs hr hexec (fun d b => s.checkedStore_eq b k (access d)) fun d _ => hdone d _

end

/-! ### The loads (R122, R123, R124) -/

/-- Settles O33: the access is one write through x8. -/
theorem loadByteEffect : Obligations.LoadByteEffect := by
  refine ⟨.of_row (by decide) fun _ _ h => by rw [decode, h], fun d b k s => ?_⟩
  exact AccessForm.of_load (i := .l08 d b k) (fun _ => view8_eq_some) rfl fun d ea => s.loads_setX8 d (s.mem.read ea)

/-- Settles O34: the access is one write through x16. -/
theorem loadHalfEffect : Obligations.LoadHalfEffect := by
  refine ⟨.of_row (by decide) fun _ _ h => by rw [decode, h], fun d b k s => ?_⟩
  exact AccessForm.of_load (i := .l16 d b k) (fun _ => view16_eq_some) rfl fun d ea => s.loads_setX16 d (s.mem.read16 ea)

/-- Under either operand order `l32` is the load of register `d` at base `b` (R124). -/
theorem exec_l32_of_order {s : State} {i : Instr} {d b k : Byte}
    (h : (s.cfg.l32Order = .destFirst ∧ i = .l32 d b k) ∨ (s.cfg.l32Order = .addrFirst ∧ i = .l32 b d k)) :
    exec i s = withRegs i (view32 d) (view16 b) fun d b => s.checkedLoad b k fun ea => s.setX32 d (s.mem.read32 ea) := by
  rcases h with ⟨horder, rfl⟩ | ⟨horder, rfl⟩
  · rw [exec_l32, execL32, horder]
  · rw [exec_l32, execL32, horder]

/-- Settles O35: under either order the access is one write through x32. -/
theorem loadWordEffect : Obligations.LoadWordEffect := by
  refine ⟨.of_row (by decide) fun _ _ h => by rw [decode, h], fun d b k s i horder => ?_⟩
  exact AccessForm.of_load (fun _ => view32_eq_some) (exec_l32_of_order horder) fun d ea =>
    s.loads_setX32 d (s.mem.read32 ea)

/-! ### The stores (R126, R127, R128) -/

/-- Settles O36: the access is one byte write. -/
theorem storeByteEffect : Obligations.StoreByteEffect := by
  refine ⟨.of_row (by decide) fun _ _ h => by rw [decode, h], fun r b k s => ?_⟩
  exact AccessForm.of_store (i := .s08 r b k) (fun _ => view8_eq_some) rfl fun r ea => s.stores_write ea (s.x8 r)

/-- Settles O37: the access is one two-byte write. -/
theorem storeHalfEffect : Obligations.StoreHalfEffect := by
  refine ⟨.of_row (by decide) fun _ _ h => by rw [decode, h], fun r b k s => ?_⟩
  exact AccessForm.of_store (i := .s16 r b k) (fun _ => view16_eq_some) rfl fun r ea => s.stores_write16 ea (s.x16 r)

/-- Settles O38: the access is one four-byte write. -/
theorem storeWordEffect : Obligations.StoreWordEffect := by
  refine ⟨.of_row (by decide) fun _ _ h => by rw [decode, h], fun r b k s => ?_⟩
  exact AccessForm.of_store (i := .s32 r b k) (fun _ => view32_eq_some) rfl fun r ea => s.stores_write32 ea (s.x32 r)

end Sys2Proof.Machine
end

section
/-! PROOFS. Family spec/43_alu.md: three register operands by the numbers of their fields, the common form of the REG3
instructions, and with it the bitwise instructions, the additions and the shifts. -/

namespace Sys2Proof.Machine

/-! ### The common form (R109, R132) -/

section
variable {i : Instr} {d r₁ r₂ : Byte} {g : Half → Half → Half} {s : State}

theorem alu_in_view (hd : d.toNat < 16) (h₁ : r₁.toNat < 16) (h₂ : r₂.toNat < 16) :
    alu i d r₁ r₂ g s = .next (s.setX16 ⟨d.toNat, hd⟩ (g (s.x16 ⟨r₁.toNat, h₁⟩) (s.x16 ⟨r₂.toNat, h₂⟩))) := by
  rw [alu, view16_of_lt hd, view16_of_lt h₁, view16_of_lt h₂, withRegs3]

theorem alu_out_of_view (h : ¬(d.toNat < 16 ∧ r₁.toNat < 16 ∧ r₂.toNat < 16)) :
    alu i d r₁ r₂ g s = .fault (.registerIndex i) := by
  unfold alu withRegs3
  split
  · next a b c hd h₁ h₂ =>
    rw [view16_eq_some] at hd h₁ h₂
    exact absurd ⟨hd ▸ a.isLt, h₁ ▸ b.isLt, h₂ ▸ c.isLt⟩ h
  · rfl

end

/-- An instruction of the common form whose word function `g` computes the number function `f` mod 2^16. -/
theorem AluForm.of_alu {m : Mnemonic} {n : Byte} {i : Byte → Byte → Byte → Instr} {f : Nat → Nat → Nat}
    {g : Half → Half → Half} (henc : Encoded m n i)
    (hexec : ∀ d r₁ r₂ s, exec (i d r₁ r₂) s = alu (i d r₁ r₂) d r₁ r₂ g s)
    (hg : ∀ a b : Half, (g a b).toNat = f a.toNat b.toNat % 2 ^ 16) : AluForm m n i f := by
  refine ⟨henc, fun d r₁ r₂ s => ⟨fun hd h₁ h₂ => ?_, fun hout => (hexec ..).trans (alu_out_of_view hout)⟩⟩
  obtain ⟨hresult, hframe⟩ := s.loads_setX16 ⟨d.toNat, hd⟩ (g (s.x16 ⟨r₁.toNat, h₁⟩) (s.x16 ⟨r₂.toNat, h₂⟩))
  exact ⟨_, (hexec ..).trans (alu_in_view hd h₁ h₂), (congrArg _ hresult).trans (hg ..), hframe⟩

/-! ### The word functions as numbers -/

/-- A result that fits a word needs no reduction. -/
theorem toNat_eq_mod_of_eq {x : Half} {n : Nat} (h : x.toNat = n) : x.toNat = n % 2 ^ 16 := by
  rw [← h, BitVec.toNat_mod_cancel]

theorem toNat_and_eq_mod (a b : Half) : (a &&& b).toNat = (a.toNat &&& b.toNat) % 2 ^ 16 :=
  toNat_eq_mod_of_eq (BitVec.toNat_and a b)

theorem toNat_or_eq_mod (a b : Half) : (a ||| b).toNat = (a.toNat ||| b.toNat) % 2 ^ 16 :=
  toNat_eq_mod_of_eq (BitVec.toNat_or a b)

theorem toNat_xor_eq_mod (a b : Half) : (a ^^^ b).toNat = (a.toNat ^^^ b.toNat) % 2 ^ 16 :=
  toNat_eq_mod_of_eq (BitVec.toNat_xor a b)

/-- The complement of a word subtracts it from 0xFFFF (R136). -/
theorem toNat_nor_eq_mod (a b : Half) : (~~~(a ||| b)).toNat = (0xFFFF - (a.toNat ||| b.toNat)) % 2 ^ 16 :=
  toNat_eq_mod_of_eq (by rw [BitVec.toNat_not, BitVec.toNat_or])

/-- Reducing the first sum before the carry-in is added does not change the result mod 2^16 (R138). -/
theorem toNat_add_carryIn (a b : Half) : (a + b + fixedCarryIn).toNat = (a.toNat + b.toNat + 1) % 2 ^ 16 := by
  have hone : fixedCarryIn.toNat = 1 := rfl
  rw [BitVec.toNat_add, BitVec.toNat_add, hone, Nat.mod_add_mod]

/-- The amount is the whole 16-bit value, not reduced (R139). -/
theorem shiftLeft_toNat (a b : Half) : (shiftLeft a b).toNat = a.toNat * 2 ^ b.toNat % 2 ^ 16 := by
  rw [shiftLeft, BitVec.toNat_shiftLeft, Nat.shiftLeft_eq]

/-- The amount is the whole 16-bit value, not reduced (R140). -/
theorem shiftRight_toNat (a b : Half) : (shiftRight a b).toNat = a.toNat / 2 ^ b.toNat % 2 ^ 16 :=
  toNat_eq_mod_of_eq (by rw [shiftRight, BitVec.toNat_ushiftRight, Nat.shiftRight_eq_div_pow])

/-! ### The instructions (R133 to R141) -/

/-- Settles O39: each is the common form with the word operation that is the bitwise one on numbers. -/
theorem bitwiseResults : Obligations.BitwiseResults := by
  refine ⟨?and, ?eth, ?xor, ?nor⟩
  case and =>
    exact .of_alu (.of_row (by decide) fun _ _ h => by rw [decode, h])
      (fun _ _ _ _ => by rw [exec_and, execAnd]) toNat_and_eq_mod
  case eth =>
    exact .of_alu (.of_row (by decide) fun _ _ h => by rw [decode, h])
      (fun _ _ _ _ => by rw [exec_eth, execEth]) toNat_or_eq_mod
  case xor =>
    exact .of_alu (.of_row (by decide) fun _ _ h => by rw [decode, h])
      (fun _ _ _ _ => by rw [exec_xor, execXor]) toNat_xor_eq_mod
  case nor =>
    exact .of_alu (.of_row (by decide) fun _ _ h => by rw [decode, h])
      (fun _ _ _ _ => by rw [exec_nor, execNor]) toNat_nor_eq_mod

/-- Settles O40: word addition is addition mod 2^16, with the constant carry-in for `adc`. -/
theorem addResults : Obligations.AddResults := by
  refine ⟨?add, ?adc⟩
  case add =>
    exact .of_alu (.of_row (by decide) fun _ _ h => by rw [decode, h])
      (fun _ _ _ _ => by rw [exec_add, execAdd]) BitVec.toNat_add
  case adc =>
    exact .of_alu (.of_row (by decide) fun _ _ h => by rw [decode, h])
      (fun _ _ _ _ => by rw [exec_adc, execAdc]) toNat_add_carryIn

/-- Settles O41: a word shift by any amount is a product or a quotient by its power of two. -/
theorem shiftResults : Obligations.ShiftResults := by
  refine ⟨?shl, ?shr⟩
  case shl =>
    exact .of_alu (.of_row (by decide) fun _ _ h => by rw [decode, h])
      (fun _ _ _ _ => by rw [exec_shl, execShl]) shiftLeft_toNat
  case shr =>
    exact .of_alu (.of_row (by decide) fun _ _ h => by rw [decode, h])
      (fun _ _ _ _ => by rw [exec_shr, execShr]) shiftRight_toNat

/-- Settles O42: the complement of b is 0xFFFF - b, which the carry-in turns into 2^16 - b. -/
theorem adcOfComplementSubtracts : Obligations.AdcOfComplementSubtracts := by
  intro d a n s hd ha hn b hb
  obtain ⟨-, -, hadc⟩ := addResults
  obtain ⟨hnext, -⟩ := hadc d a n s
  obtain ⟨t, hexec, hsum, -⟩ := hnext hd ha hn
  have hcomplement : (s.x16 ⟨n.toNat, hn⟩).toNat = 2 ^ 16 - 1 - b.toNat := by rw [hb, BitVec.toNat_not]
  have hword : b.toNat < 2 ^ 16 := b.isLt
  refine ⟨t, hexec, ?_⟩
  rw [hsum]
  dsimp only
  omega

end Sys2Proof.Machine
end

section
/-! PROOFS. Family spec/44_control.md: the net targets of `jal` and the branches over the integers, both outcomes of a
checked transfer, `jal` as a link write and a checked transfer, and the common form of the branches. -/

namespace Sys2Proof.Machine

/-! ### Net targets over the integers (R10, R143, R146) -/

theorem State.branchTarget_toNat (s : State) (k : Byte) :
    ((s.branchTarget k).toNat : Int) = (s.pc.toNat + k.toInt) % 2 ^ 16 := by
  rw [State.branchTarget, BitVec.toNat_add, Int.natCast_mod, Int.natCast_add, sext8_toNat]
  exact Int.add_emod_emod _ _ _

theorem State.link_toNat (s : State) (k : Byte) : ((s.link k).toNat : Int) = (s.pc.toNat + k.toInt + 4) % 2 ^ 16 := by
  have hlink : s.link k = s.branchTarget k + 4#16 := rfl
  rw [hlink, BitVec.toNat_add, Int.natCast_mod, Int.natCast_add, State.branchTarget_toNat]
  exact Int.emod_add_emod _ _ _

/-- An address is determined by the integer of its 16 bits. -/
theorem addr_eq_of_toNat_eq {a b : Addr} {n : Int} (ha : (a.toNat : Int) = n) (hb : (b.toNat : Int) = n) : a = b :=
  BitVec.eq_of_toNat_eq (Int.ofNat_inj.mp (ha.trans hb.symm))

/-! ### Both outcomes of a checked transfer (R13, R65, R67) -/

theorem State.checkedTransfer_of_legal {s : State} {a : Addr} (h : s.readLegal a s.cur = true) :
    s.checkedTransfer a = s.transferTo a :=
  if_pos h

/-- An illegal target leaves the memory-protection trap in the form of the statements. -/
theorem State.checkedTransfer_trapTaken {s : State} {a : Addr} (h : s.readLegal a s.cur = false) :
    TrapTaken s 0#8 4 (s.checkedTransfer a) := by
  have htrap : s.checkedTransfer a = s.memProtTrap := if_neg (Bool.eq_false_iff.mp h)
  exact htrap ▸ s.memProtTrap_trapTaken

/-! ### `jal` (R143, R144) -/

/-- Fields inside the x16 view name the same register exactly when they are the same byte. -/
theorem State.x16_setX16_fields (s : State) {d b : Byte} (hd : d.toNat < 16) (hb : b.toNat < 16) (v : Half) :
    (s.setX16 ⟨d.toNat, hd⟩ v).x16 ⟨b.toNat, hb⟩ = if b = d then v else s.x16 ⟨b.toNat, hb⟩ := by
  simp only [State.x16_setX16, Fin.mk.injEq, BitVec.toNat_inj]

/-- The link is written first; the base is read from the state that has it. -/
theorem exec_jal_in_view {d b : Byte} (hd : d.toNat < 16) (hb : b.toNat < 16) (k : Byte) (s : State) :
    exec (.jal d b k) s = .next ((s.setX16 ⟨d.toNat, hd⟩ (s.link k)).checkedTransfer
      (if b = d then s.link k else s.x16 ⟨b.toNat, hb⟩)) := by
  rw [exec_jal, execJal, view16_of_lt hd, view16_of_lt hb, withRegs, ← s.x16_setX16_fields hd hb]

theorem exec_jal_out_of_view {d b : Byte} (h : ¬(d.toNat < 16 ∧ b.toNat < 16)) (k : Byte) (s : State) :
    exec (.jal d b k) s = .fault (.registerIndex (.jal d b k)) :=
  withRegs_out_of_view (fun _ => view16_eq_some) (fun _ => view16_eq_some) h

/-- A register write changes no byte of memory, so no address becomes readable or unreadable by it. -/
theorem State.readLegal_setX16 (s : State) (i : Fin 16) (v : Half) (a : Addr) (p : Byte) :
    (s.setX16 i v).readLegal a p = s.readLegal a p :=
  State.readLegal_congr (s.setX16_mem i v) a p

/-- Settles O43: the link write, then a checked transfer whose legality the link write does not change. -/
theorem jalLinksThenJumps : Obligations.JalLinksThenJumps := by
  refine ⟨.of_row (by decide) fun _ _ h => by rw [decode, h],
    fun d b k s => ⟨fun hd hb link target hlink htarget => ?_, fun hout => exec_jal_out_of_view hout k s⟩⟩
  obtain rfl : link = s.link k := addr_eq_of_toNat_eq hlink (s.link_toNat k)
  have hexec := exec_jal_in_view hd hb k s
  rw [← htarget] at hexec
  have hsame := s.readLegal_setX16 ⟨d.toNat, hd⟩ (s.link k) target s.cur
  refine ⟨fun hlegal => ?_, fun hillegal => ⟨_, hexec, State.checkedTransfer_trapTaken (hsame.trans hillegal)⟩⟩
  rw [State.checkedTransfer_of_legal (hsame.trans hlegal)] at hexec
  obtain ⟨hreg, hbytes, hmem, -, hrest⟩ := s.loads_setX16 ⟨d.toNat, hd⟩ (s.link k)
  exact ⟨_, hexec, hreg, rfl, hbytes, hmem, hrest⟩

/-! ### The branches (R146 to R150) -/

section
variable {i : Instr} {r₁ r₂ k : Byte} {cond : Half → Half → Bool} {s : State}

theorem branch_not_taken (h₁ : r₁.toNat < 16) (h₂ : r₂.toNat < 16)
    (hc : ¬cond (s.x16 ⟨r₁.toNat, h₁⟩) (s.x16 ⟨r₂.toNat, h₂⟩) = true) : branch i r₁ r₂ k cond s = .next s := by
  rw [branch, view16_of_lt h₁, view16_of_lt h₂, withRegs, if_neg hc]

theorem branch_out_of_view (h : ¬(r₁.toNat < 16 ∧ r₂.toNat < 16)) :
    branch i r₁ r₂ k cond s = .fault (.registerIndex i) :=
  withRegs_out_of_view (fun _ => view16_eq_some) (fun _ => view16_eq_some) h

end

/-- A branch whose word condition `cond` decides the number condition `c`. -/
theorem BranchForm.of_branch {m : Mnemonic} {n : Byte} {i : Byte → Byte → Byte → Instr} {c : Nat → Nat → Prop}
    {cond : Half → Half → Bool} (henc : Encoded m n i)
    (hexec : ∀ r₁ r₂ k s, exec (i r₁ r₂ k) s = branch (i r₁ r₂ k) r₁ r₂ k cond s)
    (hcond : ∀ a b : Half, cond a b = true ↔ c a.toNat b.toNat) : BranchForm m n i c := by
  refine ⟨henc, fun r₁ r₂ k s => ⟨fun h₁ h₂ target htarget => ?_,
    fun hout => (hexec ..).trans (branch_out_of_view hout)⟩⟩
  obtain rfl : target = s.branchTarget k := addr_eq_of_toNat_eq htarget (s.branchTarget_toNat k)
  refine ⟨fun hc => ?taken, fun hc => (hexec ..).trans (branch_not_taken h₁ h₂ (mt (hcond _ _).mp hc))⟩
  case taken =>
    have htaken := (hexec ..).trans (branch_taken (k := k) h₁ h₂ ((hcond _ _).mpr hc))
    refine ⟨fun hlegal => ?_, fun hillegal => ⟨_, htaken, State.checkedTransfer_trapTaken hillegal⟩⟩
    rw [State.checkedTransfer_of_legal hlegal] at htaken
    exact ⟨_, htaken, rfl, rfl, fun _ => rfl, rfl, rfl, rfl⟩

theorem condEq_iff (a b : Half) : condEq a b = true ↔ a.toNat = b.toNat :=
  beq_iff_eq.trans BitVec.toNat_inj.symm

theorem condNe_iff (a b : Half) : condNe a b = true ↔ a.toNat ≠ b.toNat :=
  bne_iff_ne.trans (not_congr BitVec.toNat_inj.symm)

theorem condLt_iff (a b : Half) : condLt a b = true ↔ a.toNat < b.toNat := decide_eq_true_iff

theorem condGt_iff (a b : Half) : condGt a b = true ↔ a.toNat > b.toNat := decide_eq_true_iff

/-- Settles O44: words are equal exactly when their numbers are. -/
theorem equalityBranches : Obligations.EqualityBranches := by
  refine ⟨?beq, ?bne⟩
  case beq =>
    exact .of_branch (.of_row (by decide) fun _ _ h => by rw [decode, h])
      (fun _ _ _ _ => by rw [exec_beq, execBeq]) condEq_iff
  case bne =>
    exact .of_branch (.of_row (by decide) fun _ _ h => by rw [decode, h])
      (fun _ _ _ _ => by rw [exec_bne, execBne]) condNe_iff

/-- Settles O45: the order of words is that of their unsigned numbers. -/
theorem orderBranches : Obligations.OrderBranches := by
  refine ⟨?blt, ?bgt⟩
  case blt =>
    exact .of_branch (.of_row (by decide) fun _ _ h => by rw [decode, h])
      (fun _ _ _ _ => by rw [exec_blt, execBlt]) condLt_iff
  case bgt =>
    exact .of_branch (.of_row (by decide) fun _ _ h => by rw [decode, h])
      (fun _ _ _ _ => by rw [exec_bgt, execBgt]) condGt_iff

end Sys2Proof.Machine
end

section
/-! PROOFS. Family spec/45_int.md: the software trap `int`, whose execute phase is the trap transfer and nothing else. -/

namespace Sys2Proof.Machine

/-- Settles O47: `int` is the software trap with the code as it stands and the offset sign-extended, with no check before it. -/
theorem intTakesTheTrap : Obligations.IntTakesTheTrap := by
  refine ⟨?row, ?effect⟩
  case row => exact .of_row (by decide) fun _ _ h => by rw [decode, h]
  case effect =>
    intro code off s
    exact ⟨s.softTrap code off, by rw [exec_int, execInt], s.softTrap_trapTaken code off⟩

end Sys2Proof.Machine
end

section
/-! PROOFS. Family spec/60_exceptions.md: what the execute phase of each instruction can do to memory, and with it the
only ways a step changes the current process. -/

namespace Sys2Proof.Machine

/-! ### What an execute phase does to memory (R65, R67, R160) -/

/-- What the execute phase of `i` can do to memory. Beside `Effect` it says which instruction stores, and where. -/
inductive MemoryEffect (i : Instr) (s : State) : State → Prop where
  /-- No byte changes. -/
  | kept {u : State} (h : u.mem = s.mem) : MemoryEffect i s u
  /-- A trap, after a link write at most. -/
  | trapped (A : Arena) (c : Byte) (o : Half) : MemoryEffect i s ((s.withArena A).trapTransfer c o)
  /-- A legal store of `width` bytes at the effective address. -/
  | stored {r b k : Byte} {width : Nat} {u : State} (hstore : IsStore i r b k width) (hb : b.toNat < 16)
      (legal : s.writeLegal (s.effAddr ⟨b.toNat, hb⟩ k) (s.preAddr ⟨b.toNat, hb⟩ k) s.cur = true)
      (hframe : ∀ a, width ≤ (a - s.effAddr ⟨b.toNat, hb⟩ k).toNat → u.mem.read a = s.mem.read a) : MemoryEffect i s u

section
variable {i : Instr} {s u : State}

theorem MemoryEffect.of_checkedTransfer (A : Arena) (t : Addr) :
    MemoryEffect i s ((s.withArena A).checkedTransfer t) := by
  rcases (s.withArena A).checkedTransfer_eq t with ⟨-, h⟩ | ⟨-, h⟩ <;> rw [h]
  · exact .kept rfl
  · exact .trapped A _ _

theorem MemoryEffect.of_checkedLoad (b : Fin 16) (k : Byte) (f : Addr → Arena) :
    MemoryEffect i s (s.checkedLoad b k fun ea => s.withArena (f ea)) := by
  rcases s.checkedLoad_eq b k (fun ea => s.withArena (f ea)) with ⟨-, h⟩ | ⟨-, h⟩ <;> rw [h]
  · exact .kept rfl
  · exact .trapped s.arena _ _

theorem MemoryEffect.of_alu {d r₁ r₂ : Byte} {f : Half → Half → Half} (h : alu i d r₁ r₂ f s = .next u) :
    MemoryEffect i s u := by
  obtain ⟨a, b, c, -, -, -, rfl⟩ := withRegs3_eq_next.mp h
  exact .kept rfl

theorem MemoryEffect.of_branch {r₁ r₂ k : Byte} {cond : Half → Half → Bool} (h : branch i r₁ r₂ k cond s = .next u) :
    MemoryEffect i s u := by
  obtain ⟨a, b, -, -, rfl⟩ := withRegs_eq_next.mp h
  split
  · exact .of_checkedTransfer s.arena _
  · exact .kept rfl

/-- A store whose access leaves every byte alone that is `width` or more past its address. -/
theorem MemoryEffect.of_store {α : Type} {x : Option α} {r b k : Byte} {width : Nat} {access : α → Addr → Memory}
    (hstore : IsStore i r b k width)
    (hframe : ∀ v ea a, width ≤ (a - ea).toNat → (access v ea).read a = s.mem.read a)
    (h : withRegs i x (view16 b) (fun v b => s.checkedStore b k (access v)) = .next u) : MemoryEffect i s u := by
  obtain ⟨v, base, -, hbase, rfl⟩ := withRegs_eq_next.mp h
  have hb : b.toNat < 16 := view16_eq_some.mp hbase ▸ base.isLt
  obtain rfl : ⟨b.toNat, hb⟩ = base := Fin.ext (view16_eq_some.mp hbase)
  rcases s.checkedStore_eq ⟨b.toNat, hb⟩ k (access v) with ⟨legal, h⟩ | ⟨-, h⟩ <;> rw [h]
  · exact .stored hstore hb legal (hframe v _)
  · exact .trapped s.arena _ _

end

theorem Memory.read_write_of_far (m : Memory) {a x : Addr} (v : Byte) (h : 1 ≤ (x - a).toNat) :
    (m.write a v).read x = m.read x :=
  m.read_write_of_ne v (by bv_omega)

/-- The execute phases by the shared operation each is made of. -/
theorem exec_memoryEffect {i : Instr} {s u : State} (h : exec i s = .next u) : MemoryEffect i s u := by
  cases i with
  | hlt | nop =>
    cases h
    exact .kept rfl
  | lim r imm =>
    obtain ⟨a, -, rfl⟩ := withReg_eq_next.mp h
    exact .kept rfl
  | l08 d b k | l16 d b k | l32 d b k =>
    obtain ⟨d, b, -, -, rfl⟩ := withRegs_eq_next.mp h
    exact .of_checkedLoad b k _
  | s08 r b k => exact .of_store (.inl ⟨rfl, rfl⟩) (fun _ _ _ => s.mem.read_write_of_far _) h
  | s16 r b k => exact .of_store (.inr (.inl ⟨rfl, rfl⟩)) (fun _ _ _ => s.mem.read_write16_of_far _) h
  | s32 r b k => exact .of_store (.inr (.inr ⟨rfl, rfl⟩)) (fun _ _ _ => s.mem.read_write32_of_far _) h
  | jal d b k =>
    obtain ⟨d, b, -, -, rfl⟩ := withRegs_eq_next.mp h
    exact .of_checkedTransfer (writeX16 s.arena d (s.link k)) _
  | beq r₁ r₂ k | bne r₁ r₂ k | blt r₁ r₂ k | bgt r₁ r₂ k => exact .of_branch h
  | and d r₁ r₂ | eth d r₁ r₂ | xor d r₁ r₂ | nor d r₁ r₂ | add d r₁ r₂ | adc d r₁ r₂ | shl d r₁ r₂ | shr d r₁ r₂ =>
    rw [exec] at h
    exact .of_alu h
  | int c f =>
    cases h
    exact .trapped s.arena _ _

/-! ### The current process (R176) -/

/-- Settles O23: the poll leaves byte 1120 alone, and an execute phase that changes it traps or stores to it. -/
theorem currentProcessChangesOnlyByTrapOrStore : Obligations.CurrentProcessChangesOnlyByTrapOrStore := by
  intro s t h hne
  rcases step_next_cases h with ⟨-, rfl⟩ | ⟨-, -, rfl⟩ | ⟨-, -, u, hu, rfl⟩
  · exact absurd rfl hne
  · exact absurd rfl hne
  · rw [State.endCycle_cur] at hne
    cases exec_memoryEffect hu with
    | kept hmem => exact absurd (congrArg (·.read 1120#16) hmem) hne
    | trapped A c o => exact .inl (s.endCycle_trapTransfer A c _ o)
    | stored hstore hb legal hframe =>
      refine .inr ⟨_, _, _, hb, _, hstore, legal, ?_⟩
      by_contra hfar
      exact hne (hframe 1120#16 (Nat.not_lt.mp hfar))

end Sys2Proof.Machine
end

section
/-! PROOFS. Family spec/70_reset_and_hazards.md: what a load gives, the first fetch after it, and how the run's result
depends on the fuel. -/

namespace Sys2Proof.Machine

/-! ### Loading (R187) -/

section
variable {c : Config} {A : Arena} {img : List Byte}

theorem load_of_fits (h : img.length ≤ 65536) : load c A img = .next (.resetWith c A img) := if_neg (Nat.not_lt.mpr h)

theorem load_of_too_long (h : 65536 < img.length) : load c A img = .refused (.imageTooLong img.length) := if_pos h

/-- A load gives a state only when the image fits, and then the reset sequence's. -/
theorem load_eq_next_iff {s : State} : load c A img = .next s ↔ img.length ≤ 65536 ∧ s = .resetWith c A img := by
  by_cases h : img.length ≤ 65536
  · simp [load_of_fits h, h, eq_comm]
  · simp [load_of_too_long (Nat.not_le.mp h), h]

end

/-- Memory at reset outside the two bytes the reset sequence writes: the image and zeros (R187, R188). -/
theorem resetMemory_read_of_ne (img : List Byte) {a : Addr} (h₁ : a ≠ 1029#16) (h₂ : a ≠ 1120#16) :
    (resetMemory img).read a = img.getD a.toNat 0#8 := by
  rw [resetMemory_read, if_neg h₁, if_neg h₂]

/-- Settles O6, by what memory reads at reset; the two bytes written are at different addresses. -/
theorem resetSequence : Obligations.ResetSequence := by
  refine fun c A img => ⟨fun hfits => ⟨_, load_of_fits hfits, fun a => ?_, rfl, rfl, rfl, rfl, rfl⟩, load_of_too_long⟩
  rw [State.resetWith_mem]
  by_cases h₁ : a = 1029#16
  · rw [resetMemory_read, if_pos h₁, h₁]
    rfl
  · by_cases h₂ : a = 1120#16
    · rw [resetMemory_read, if_neg h₁, if_pos h₂, h₂]
      rfl
    · have hn₁ : a.toNat ≠ 1029 := fun h => h₁ (BitVec.eq_of_toNat_eq h)
      have hn₂ : a.toNat ≠ 1120 := fun h => h₂ (BitVec.eq_of_toNat_eq h)
      rw [resetMemory_read_of_ne img h₁ h₂, if_neg hn₂, if_neg hn₁]

/-! ### The invariant at reset (R42, R187) -/

/-- Of a running state the invariant asks for canonical memory alone. -/
theorem State.Inv.of_running {s : State} (hr : s.run = .running) (hm : s.mem.wf = true) : s.Inv :=
  ⟨hm, fun _ h => nomatch hr.symm.trans h⟩

theorem State.resetWith_inv (c : Config) (A : Arena) {img : List Byte} (h : img.length ≤ 65536) :
    (State.resetWith c A img).Inv :=
  .of_running rfl (resetMemory_wf h)

/-- Settles O8; `State.reset` is the state the empty image gives. -/
theorem resetSatisfiesInvariant : Obligations.ResetSatisfiesInvariant := by
  refine ⟨State.resetWith_inv _ _ (Nat.zero_le _), fun c A img s hload => ?_⟩
  obtain ⟨hfits, rfl⟩ := load_eq_next_iff.mp hload
  exact State.resetWith_inv c A hfits

/-! ### The first fetch (R189) -/

theorem State.readLegal_of_superuser {s : State} {p : Byte} (hs : s.superuser p = true) (a : Addr) :
    s.readLegal a p = true :=
  (s.readLegal_iff a p).mpr (.inl hs)

/-- The cycle of a legal fetch does not end in a fetch fault. -/
theorem State.fetches.step_run_ne_fetchFaulted {s t : State} (hf : s.fetches) (h : step s = .next t) (a : Addr) :
    t.run ≠ .fetchFaulted a := by
  obtain ⟨hr, hl⟩ := hf
  rcases step_effect h with ⟨hfinal, -⟩ | ⟨-, hillegal, -⟩ | ⟨-, -, u, hu, rfl⟩
  · exact absurd hr hfinal
  · exact absurd (hl.symm.trans hillegal) (by decide)
  · rw [State.endCycle_run, hu.run, hr]
    split <;> nofun

section
variable (c : Config) (A : Arena) (img : List Byte)

theorem State.resetWith_fetch_op : (State.resetWith c A img).fetch.op = img.getD 0 0#8 :=
  resetMemory_read_of_ne img (a := 0#16) (by decide) (by decide)

theorem State.resetWith_cur : (State.resetWith c A img).cur = 0#8 := resetMemory_read img 1120#16

/-- The reset sequence sets bit 7 of byte 1029, the last of process 0's entry. -/
theorem State.resetWith_superuser : (State.resetWith c A img).superuser 0#8 = true := by
  have hbyte : (resetMemory img).read (pptEntry 0#8 + 5#16) = img.getD 1029 0#8 ||| 0x80#8 :=
    resetMemory_read img 1029#16
  rw [State.superuser_eq_bit, State.resetWith_mem, hbyte, BitVec.getLsbD_or]
  exact Bool.or_true _

theorem State.resetWith_offset :
    ((State.resetWith c A img).offset 0#8).toNat = (img.getD 1024 0#8).toNat + 256 * (img.getD 1025 0#8).toNat := by
  have hlo : (resetMemory img).read 1024#16 = img.getD 1024 0#8 := resetMemory_read_of_ne img (by decide) (by decide)
  have hhi : (resetMemory img).read 1025#16 = img.getD 1025 0#8 := resetMemory_read_of_ne img (by decide) (by decide)
  rw [← hlo, ← hhi]
  exact toNat_append16 _ _

theorem State.resetWith_fetches : (State.resetWith c A img).fetches := by
  refine ⟨rfl, ?_⟩
  rw [State.resetWith_cur]
  exact State.readLegal_of_superuser (State.resetWith_superuser c A img) _

end

/-- Settles O7; the image reaches neither the current process nor process 0's superuser bit, since reset writes both
after it. -/
theorem firstFetchNeverFaults : Obligations.FirstFetchNeverFaults := by
  intro c A img s hload
  obtain ⟨-, rfl⟩ := load_eq_next_iff.mp hload
  have hf := State.resetWith_fetches c A img
  refine ⟨rfl, State.resetWith_fetch_op c A img, State.resetWith_cur c A img, State.resetWith_superuser c A img, hf.2,
    State.resetWith_offset c A img, fun b k => ?_, fun t a h => hf.step_run_ne_fetchFaulted h a⟩
  rw [State.effAddr, State.resetWith_cur]

/-! ### The fuel (R204) -/

/-- A run that ends within the fuel has the same result under any larger fuel. -/
theorem runFuel_of_le {n m : Nat} {s : State} (hnm : n ≤ m) (h : (runFuel n s).status ≠ .outOfFuel) :
    runFuel m s = runFuel n s := by
  fun_induction runFuel n s generalizing m with
  | case1 _ s hr => exact runFuel_halted hr m
  | case2 _ s a hr => exact runFuel_fetchFaulted hr m
  | case3 s hr => exact absurd rfl h
  | case4 s hr n t hs ih =>
    obtain ⟨m, rfl⟩ := Nat.exists_eq_add_of_le' (Nat.one_le_of_lt hnm)
    rw [runFuel_succ hr, hs]
    exact ih (Nat.le_of_succ_le_succ hnm) h
  | case5 s hr n f hs | case6 s hr n f hs =>
    obtain ⟨m, rfl⟩ := Nat.exists_eq_add_of_le' (Nat.one_le_of_lt hnm)
    rw [runFuel_succ hr, hs]

/-- A run that is out of fuel made one step per unit of it, and is still running. -/
theorem run_of_runFuel_outOfFuel {n : Nat} {s : State} (h : (runFuel n s).status = .outOfFuel) :
    Host.Core.run Sys2Proof.core n s = .next (runFuel n s).final ∧ (runFuel n s).final.run = .running := by
  fun_induction runFuel n s with
  | case1 | case2 | case5 | case6 => cases h
  | case3 s hr => exact ⟨rfl, hr⟩
  | case4 s hr n t hs ih =>
    rw [run_succ, hs]
    exact ih h

/-- Settles O50. -/
theorem fuelOnlyCutsARunShort : Obligations.FuelOnlyCutsARunShort :=
  fun _ _ _ => ⟨runFuel_of_le, run_of_runFuel_outOfFuel⟩

end Sys2Proof.Machine
end
